-- ==== Sys2Proof/Word.lean ====
section
/-! DEFINITION. The value types of 00_scope.md R7: Nibble, Word, Block, the 18-bit command word (30_encoding.md R37), the
4-nibble State of the cipher (called `Nibbles` here, because `State` is the machine's whole state) and the triple of round keys. -/

namespace Sys2Proof

/-- R7: a 4-bit unsigned value. -/
abbrev Nibble := BitVec 4

/-- R7: an 8-bit unsigned value of two nibbles, used only in key expansion. -/
abbrev Word := BitVec 8

/-- R7: a 16-bit unsigned value, a key, a plaintext or a ciphertext. -/
abbrev Block := BitVec 16

/-- R37: the 18-bit command word CMD. -/
abbrev CommandWord := BitVec 18

/-- R7, R12: the spec's "State" `[s0, s1, s2, s3]`, an ordered sequence of exactly four nibbles. -/
structure Nibbles where
  n0 : Nibble
  n1 : Nibble
  n2 : Nibble
  n3 : Nibble
  deriving DecidableEq, Repr

/-- R14, R59: the ordered triple (pre-round, round-1, round-2) of round keys. -/
structure RoundKeys where
  pre    : Nibbles
  round1 : Nibbles
  round2 : Nibbles
  deriving DecidableEq, Repr

end Sys2Proof
end

