-- ==== Sys2Proof/Syntax.lean ====
section
/-! DEFINITION. The command set (30_encoding.md R37 to R45): the three commands, the two outcomes of decoding a command word, a row
of the opcode table, and the host-side requests and errors of 60_exceptions.md R99 and 30_encoding.md R42, R43. -/

namespace Sys2Proof

/-- R39: the three commands. The operand is IMM16, a key, a plaintext block or a ciphertext block (R38). -/
inductive Instr where
  /-- R60: `KEY k` loads and expands a key. -/
  | key (k : Block)
  /-- R82: `ENC p` encrypts a block. -/
  | enc (p : Block)
  /-- R84: `DEC c` decrypts a block. -/
  | dec (c : Block)
  deriving DecidableEq, Repr

/-- R39: what a command word spells, a command or nothing (the reserved OP = 0b00, R40). -/
inductive Decoded where
  | command (i : Instr)
  | reserved
  deriving DecidableEq, Repr

/-- R42: the three mnemonics, each the hardware form of one operation of the source. -/
inductive Mnemonic where
  | KEY
  | ENC
  | DEC
  deriving DecidableEq, Repr

/-- R39: one row of the opcode table: a word spells the mnemonic exactly when `word &&& mask = pattern`. -/
structure OpcodeRow where
  mnemonic : Mnemonic
  pattern  : CommandWord
  mask     : CommandWord
  deriving DecidableEq, Repr

/-- R99: an operation asked for at the host boundary, where a number may still be wider than 16 bits. -/
structure Request where
  op      : Mnemonic
  operand : Nat
  deriving DecidableEq, Repr

/-- R43, R99 (90_conflicts.md C4): the host boundary's two names for a value above 0xFFFF. Neither reaches the block. -/
inductive HostError where
  /-- the key of a Construct does not fit in 16 bits -/
  | invalidKeyWidth
  /-- a plaintext or ciphertext does not fit in 16 bits -/
  | outOfRange
  deriving DecidableEq, Repr

/-- R42, R43: why the assembler refuses a line. -/
inductive AsmError where
  /-- the line is not `MNEMONIC IMMEDIATE` -/
  | malformedLine
  /-- the first word is none of the three mnemonics -/
  | unknownMnemonic
  /-- the immediate is no literal of R42 -/
  | badLiteral
  /-- the immediate's value is above 0xFFFF (R43) -/
  | tooWide (e : HostError)
  deriving DecidableEq, Repr

end Sys2Proof
end

