-- ==== Sys2Proof/WellFormed.lean ====
section
/-! DEFINITION. What the encoding admits. An `Instr` carries its operand at its exact width, and "every IMM16 value is legal with
every defined OP" (30_encoding.md R41), so no instruction term is ill-formed. The checks are on what can be: a command word
(its OP may be the reserved 0b00, R40) and a host request (its number may be wider than 16 bits, 60_exceptions.md R99). -/

namespace Sys2Proof

/-- R41: there is no illegal operand of a defined command. -/
def Instr.wellFormed : Instr → Bool
  | .key _ => true
  | .enc _ => true
  | .dec _ => true

/-- R40: a command word spells a command exactly when OP = CMD[17:16] is not the reserved 0b00. -/
def CommandWord.wellFormed (w : CommandWord) : Bool :=
  w.extractLsb' 16 2 != 0b00#2

/-- R99: a request may be sent only when its operand fits in 16 bits. -/
def Request.wellFormed (r : Request) : Bool :=
  decide (r.operand ≤ 0xFFFF)

end Sys2Proof
end

