-- ==== Sys2Proof/Decode.lean ====
section
/-! DEFINITION. The decoder and the encoder of the one 18-bit format (30_encoding.md R37 to R41, R45). -/

namespace Sys2Proof

/-- R37: OP = CMD[17:16]. -/
def opField (w : CommandWord) : BitVec 2 :=
  w.extractLsb' 16 2

/-- R38: IMM16 = CMD[15:0], unsigned, with no extension, scaling or shift. -/
def immField (w : CommandWord) : Block :=
  w.extractLsb' 0 16

/-- R39: total over every 18-bit value. -/
def decode (w : CommandWord) : Decoded :=
  if opField w = 0b01#2 then .command (.key (immField w))
  else if opField w = 0b10#2 then .command (.enc (immField w))
  else if opField w = 0b11#2 then .command (.dec (immField w))
  else .reserved

/-- R39: the opcode table by match and mask (spec/opcode_table.json). -/
def opcodeTable : List OpcodeRow :=
  [⟨.KEY, 0x10000#18, 0x30000#18⟩, ⟨.ENC, 0x20000#18, 0x30000#18⟩, ⟨.DEC, 0x30000#18, 0x30000#18⟩]

/-- R39: the mnemonic of a command. -/
def mnemonicOf : Instr → Mnemonic
  | .key _ => .KEY
  | .enc _ => .ENC
  | .dec _ => .DEC

/-- R38: the operand of a command. -/
def operandOf : Instr → Block
  | .key k => k
  | .enc p => p
  | .dec c => c

/-- R39: the OP value of a mnemonic. -/
def opOf : Mnemonic → BitVec 2
  | .KEY => 0b01#2
  | .ENC => 0b10#2
  | .DEC => 0b11#2

/-- R45: CMD = (OP << 16) | IMM16, written as the concatenation `hi ++ lo` of R8. -/
def encode (i : Instr) : CommandWord :=
  opOf (mnemonicOf i) ++ operandOf i

/-- The command of a mnemonic and an operand of the right width. -/
def instrOf (m : Mnemonic) (v : Block) : Instr :=
  match m with
  | .KEY => .key v
  | .ENC => .enc v
  | .DEC => .dec v

/-- The command word that a number stands for, numbered as spec/opcode_table.json numbers bits: the low `nbits` bits of `w`. The
port has 18 bits (R37); a number that needs more is no command word and is never cut down to one. DESIGN CHOICE, log entry 10: the
spec hands no wider number to the port. -/
def commandWordOf (nbits w : Nat) : Option CommandWord :=
  let v := w % 2 ^ nbits
  if v < 2 ^ 18 then some (BitVec.ofNat 18 v) else none

/-- The decoder on such a number. It reads no instruction from a number wider than 18 bits. DESIGN CHOICE, log entry 10. -/
def decodeTableWord (nbits w : Nat) : Option Instr :=
  match commandWordOf nbits w with
  | some c =>
    match decode c with
    | .command i => some i
    | .reserved => none
  | none => none

end Sys2Proof
end

