-- ==== Sys2Proof/Machine/State.lean ====
section
/-! DEFINITION. The machine's state as plain data (10_state.md), its reset value (R22, 70_reset_and_hazards.md R104), and the reasons
a step stops or a read is refused. -/

namespace Sys2Proof.Machine

/-- R91: the two causes the block raises. The code 0 is "no fault"; the code 3 is reserved and never raised. -/
inductive Cause where
  /-- code 1: a command word with OP = 0b00 -/
  | illegalCommand
  /-- code 2: ENC or DEC while KEY_VALID = 0 -/
  | noKey
  deriving DecidableEq, Repr

/-- R16: the fields of STATUS. Bits 7:6 are hardwired 0 and so are no field; `statusWord` (Machine/Flags.lean) is the 8-bit register
the host reads. -/
structure Status where
  /-- bit 0 -/
  keyValid  : Bool
  /-- bit 1 -/
  doutValid : Bool
  /-- bit 2 -/
  busy      : Bool
  /-- bit 3 -/
  fault     : Bool
  /-- bits 5:4 -/
  cause     : BitVec 2
  deriving DecidableEq, Repr

/-- R19: the values of the hidden sequencer register STAGE. -/
inductive Stage where
  | idle
  | e1
  | e2
  | e3
  | e4
  | e5
  | e6
  | d1
  | d2
  | d3
  | d4
  | d5
  | d6
  deriving DecidableEq, Repr

/-- The two forms in which 45_pipeline_commands.md gives the pipeline. DESIGN CHOICE, log entry 2: the form a run is stepped in is
plain data in State. -/
inductive Level where
  /-- the normative atomic model, R80 to R85: one step per command -/
  | atomic
  /-- the stage-level refinement, R86 to R88: one acceptance step and six stage steps per ENC or DEC -/
  | stages
  deriving DecidableEq, Repr

/-- What the host does at the block's two inputs, the command port (R37, R102) and the reset input (R104). -/
inductive HostMove where
  /-- the host's next command word, presented once the block is idle (R108 duty 1) and held until accepted (duty 3) -/
  | present (w : CommandWord)
  /-- for one step the host gives the block nothing to accept -/
  | hold
  /-- the host asserts reset, which it may do at any time (R104) -/
  | reset
  deriving DecidableEq, Repr

/-- The whole state. The spec's registers come first; `level` and `host` are the model's own fields. -/
structure State where
  /-- R12: S, the nibble state register; `none` is the spec's "no value" (R23). Log entry 1. -/
  sreg   : Option Nibbles
  /-- R14: RK[0], the pre-round key -/
  rk0    : Option Nibbles
  /-- R14: RK[1], the round-1 key -/
  rk1    : Option Nibbles
  /-- R14: RK[2], the round-2 key -/
  rk2    : Option Nibbles
  /-- R15: DOUT, the data-output register -/
  dout   : Option Block
  /-- R16: STATUS -/
  status : Status
  /-- R19: STAGE, which leaves Idle only at level `stages` -/
  stage  : Stage
  /-- the model's own: which of the spec's two forms the run is stepped in. Log entry 2. -/
  level  : Level
  /-- the model's own: the moves the host has still to make, in order. Log entry 3. -/
  host   : List HostMove
  deriving DecidableEq, Repr

/-- Why a step stops with a fault outcome. The architected faults of R91 are no such stop: fault entry (R94) is a next state. -/
inductive Fault where
  /-- Raised when a command is presented while STATUS.FAULT = 1: "Step has no transition" (R95, 93_implementation_defined.md I3).
  Safe: the hardware does nothing either, and nothing is claimed about the later commands. -/
  | stuck
  deriving DecidableEq, Repr

/-- Why the model has no move, or refuses an observation. -/
inductive Refusal where
  /-- Raised by an arm of exec whose instruction has no meaning yet; no arm is left so. Safe. -/
  | notModelled (mnemonic : String)
  /-- Raised by a meaning called while STAGE is not Idle: "A command presented while BUSY = 1 is not accepted" (R108 duty 1, I8).
  `step` never asks for it. Safe. -/
  | commandWhileBusy
  /-- Raised by a read of a register that holds no value (R23, I4). No state that satisfies the invariant of R24 gets here. Safe. -/
  | noValue
  /-- Raised by a host read of DOUT unless BUSY = 0 and DOUT_VALID = 1 (R23, R108 duty 2). Safe. -/
  | doutNotValid
  deriving DecidableEq, Repr

/-- The outcome of a step of this machine. -/
abbrev Result := Host.Outcome State Fault Refusal

/-- R22, R104: the state after reset. The spec gives S, RK[0..2] and DOUT "no value", STATUS 0x00 and STAGE Idle. The level is
`atomic`, the normative model (DESIGN CHOICE, log entry 2), and the host has no move (DESIGN CHOICE, log entry 3). -/
def State.reset : State where
  sreg   := none
  rk0    := none
  rk1    := none
  rk2    := none
  dout   := none
  status := { keyValid := false, doutValid := false, busy := false, fault := false, cause := 0b00#2 }
  stage  := .idle
  level  := .atomic
  host   := []

end Sys2Proof.Machine
end

