-- ==== Sys2Proof/Machine/Flags.lean ====
section
/-! DEFINITION. The only flags the block has, the fields of STATUS (10_state.md R16, R24), and what writes each. No datapath
operation sets a flag (R24). -/

namespace Sys2Proof.Machine

/-- R91: the code of a cause. -/
def causeCode : Cause → BitVec 2
  | .illegalCommand => 1#2
  | .noKey => 2#2

/-- R16, R46: the 8-bit word the host reads. Bits 7:6 read 0, bits 5:4 CAUSE, bit 3 FAULT, bit 2 BUSY, bit 1 DOUT_VALID, bit 0
KEY_VALID. -/
def statusWord (t : Status) : BitVec 8 :=
  0b00#2 ++ t.cause ++ BitVec.ofBool t.fault ++ BitVec.ofBool t.busy ++ BitVec.ofBool t.doutValid ++ BitVec.ofBool t.keyValid

/-- R60: KEY writes KEY_VALID <- 1 and nothing else of STATUS. -/
def statusKeyLoaded (t : Status) : Status :=
  { t with keyValid := true }

/-- R82, R84: ENC and DEC write DOUT_VALID <- 1 and nothing else of STATUS. -/
def statusDelivered (t : Status) : Status :=
  { t with doutValid := true }

/-- R86, R87: acceptance at stage level writes DOUT_VALID <- 0 and BUSY <- 1. -/
def statusAccepted (t : Status) : Status :=
  { t with doutValid := false, busy := true }

/-- R86, R87: stage E6 or D6 writes DOUT_VALID <- 1 and BUSY <- 0. -/
def statusFinished (t : Status) : Status :=
  { t with doutValid := true, busy := false }

/-- R94: fault entry writes FAULT <- 1 and CAUSE <- cause. -/
def statusFaulted (c : Cause) (t : Status) : Status :=
  { t with fault := true, cause := causeCode c }

end Sys2Proof.Machine
end

