-- ==== Sys2Proof/Machine/Operands.lean ====
section
/-! DEFINITION. The operand forms: how a 16-bit value is seen as nibbles, words and State (20_memory.md R27), and the bit-permuted
block converter (41_block_converter.md R47, R48). The command's one operand form, the 16-bit immediate (30_encoding.md R38), is
`immField` of Decode.lean. -/

namespace Sys2Proof.Machine

/-- R9, R79: `S[i]`, position i of a State, one of its four lanes. -/
def lane (s : Nibbles) (i : Fin 4) : Nibble :=
  match i with
  | 0 => s.n0
  | 1 => s.n1
  | 2 => s.n2
  | 3 => s.n3

/-- R27, R51: w0, the high byte v[15:8]. -/
def highByte (v : Block) : Word :=
  v.extractLsb' 8 8

/-- R27, R51: w1, the low byte v[7:0]. -/
def lowByte (v : Block) : Word :=
  v.extractLsb' 0 8

/-- R27: the high nibble w[7:4]. -/
def highNibble (w : Word) : Nibble :=
  w.extractLsb' 4 4

/-- R27: the low nibble w[3:0]. -/
def lowNibble (w : Word) : Nibble :=
  w.extractLsb' 0 4

/-- R47: ToState(n) = [n[15:12], n[7:4], n[11:8], n[3:0]], with the crossed mapping of positions 1 and 2. -/
def toState (n : Block) : Nibbles where
  n0 := n.extractLsb' 12 4
  n1 := n.extractLsb' 4 4
  n2 := n.extractLsb' 8 4
  n3 := n.extractLsb' 0 4

/-- R48: ToBlock(s), position 2 in bits 11:8 and position 1 in bits 7:4. -/
def toBlock (s : Nibbles) : Block :=
  s.n0 ++ s.n2 ++ s.n1 ++ s.n3

end Sys2Proof.Machine
end

