-- ==== Sys2Proof/Machine/Ops.lean ====
section
/-! DEFINITION. The named operations over the registers, shared by the meanings: reading a register that may hold no value
(10_state.md R23), what a command or a stage writes, fault entry (60_exceptions.md R94), reset (70_reset_and_hazards.md R104) and the
guard under which a command is taken (R95, R96). The block has no memory (20_memory.md R25), so no operation reads or writes one.
There is no return from a fault (R97): only reset leaves the fault state. -/

namespace Sys2Proof.Machine

/-- R9: `RK[r]`. -/
def roundKey (s : State) (r : Fin 3) : Option Nibbles :=
  match r with
  | 0 => s.rk0
  | 1 => s.rk1
  | 2 => s.rk2

/-- R23: read a register and go on with its value; a register with no value is refused (I4). -/
def withValue (r : Option Nibbles) (k : Nibbles → Result) : Result :=
  match r with
  | some v => k v
  | none => .refused .noValue

/-- R14, R81, R83: read the three round keys. -/
def withRoundKeys (s : State) (k : RoundKeys → Result) : Result :=
  withValue s.rk0 fun a => withValue s.rk1 fun b => withValue s.rk2 fun c => k ⟨a, b, c⟩

/-- R60: the three round-key registers and KEY_VALID, in one step. -/
def loadKeys (rk : RoundKeys) (s : State) : State :=
  { s with rk0 := some rk.pre, rk1 := some rk.round1, rk2 := some rk.round2, status := statusKeyLoaded s.status }

/-- R82, R84: S, DOUT and DOUT_VALID, in one step. -/
def deliver (v : Nibbles) (s : State) : State :=
  { s with sreg := some v, dout := some (toBlock v), status := statusDelivered s.status }

/-- R86, R87: the acceptance of ENC or DEC at stage level. -/
def beginStages (v : Nibbles) (first : Stage) (s : State) : State :=
  { s with sreg := some v, stage := first, status := statusAccepted s.status }

/-- R86, R87: a stage that writes S and moves on. -/
def toStage (v : Nibbles) (next : Stage) (s : State) : State :=
  { s with sreg := some v, stage := next }

/-- R86, R87: the last stage, E6 or D6. S keeps its value. -/
def finishStages (v : Nibbles) (s : State) : State :=
  { s with dout := some (toBlock v), stage := .idle, status := statusFinished s.status }

/-- R94: fault entry, `raise Fault(cause)`. Nothing but FAULT and CAUSE changes, and nothing is saved anywhere (R92, R93). -/
def raiseFault (c : Cause) (s : State) : State :=
  { s with status := statusFaulted c s.status }

/-- R104: RESET puts every register of the block at its reset value. What is not the block's, the host's later moves and the level the
run is stepped in, stays. Log entry 7. -/
def applyReset (s : State) : State :=
  { State.reset with level := s.level, host := s.host }

/-- R95, R96 check 1, R60, R88: a command is taken only when FAULT = 0 and the block is idle. -/
def whenAccepting (s : State) (k : Result) : Result :=
  if s.status.fault then .fault .stuck
  else if s.stage ≠ .idle then .refused .commandWhileBusy
  else k

/-- R93, R96 check 3: ENC and DEC need a key. -/
def whenKeyed (s : State) (k : Result) : Result :=
  if s.status.keyValid then k else .next (raiseFault .noKey s)

end Sys2Proof.Machine
end

