-- ==== Sys2Proof/Machine/Substitution.lean ====
section
/-! DEFINITION. The two substitution ROMs and nibble substitution (43_substitution_gf.md R62 to R66; 10_state.md R21, 20_memory.md R26). -/

namespace Sys2Proof.Machine

/-- R62: Sbox, index = input nibble. -/
def sboxRom : Vector Nibble 16 :=
  #v[0x9, 0x4, 0xA, 0xB, 0xD, 0x1, 0x8, 0x5, 0x6, 0x2, 0x0, 0x3, 0xC, 0xE, 0xF, 0x7]

/-- R63: SboxI, index = input nibble. -/
def sboxIRom : Vector Nibble 16 :=
  #v[0xA, 0x5, 0x9, 0xB, 0x1, 0x7, 0x8, 0xF, 0x6, 0x0, 0x2, 0x3, 0xC, 0x4, 0xD, 0xE]

/-- R26: every index 0..15 is valid, so a lookup never fails. -/
def romRead (rom : Vector Nibble 16) (n : Nibble) : Nibble :=
  rom[n.toNat]'n.isLt

/-- R62: the forward box. -/
def sbox (n : Nibble) : Nibble :=
  romRead sboxRom n

/-- R63: the inverse box. -/
def sboxI (n : Nibble) : Nibble :=
  romRead sboxIRom n

/-- R65, R66: element-wise lookup through a box. -/
def subNibbles (box : Nibble → Nibble) (s : Nibbles) : Nibbles :=
  ⟨box s.n0, box s.n1, box s.n2, box s.n3⟩

/-- R65: NSUB. -/
def nsub (s : Nibbles) : Nibbles :=
  subNibbles sbox s

/-- R66: INSUB. -/
def insub (s : Nibbles) : Nibbles :=
  subNibbles sboxI s

end Sys2Proof.Machine
end

