-- ==== Sys2Proof/Machine/KeySchedule.lean ====
section
/-! DEFINITION. The key-schedule generator and the KEY command (42_key_schedule.md). The words w0..w5 are local to `keyExpand`, never
state (10_state.md R20). -/

namespace Sys2Proof.Machine

/-- R52: swap the two nibbles of a Word. -/
def rotWord (w : Word) : Word :=
  lowNibble w ++ highNibble w

/-- R53: the forward S-box on each nibble of a Word. -/
def subWord (w : Word) : Word :=
  sbox (highNibble w) ++ sbox (lowNibble w)

/-- R54: RC1. -/
def rc1 : Word :=
  0x80

/-- R54: RC2. -/
def rc2 : Word :=
  0x30

/-- R51, R55 to R59: KeyExpand(k). -/
def keyExpand (k : Block) : RoundKeys :=
  let w0 := highByte k
  let w1 := lowByte k
  let w2 := w0 ^^^ subWord (rotWord w1) ^^^ rc1
  let w3 := w2 ^^^ w1
  let w4 := w2 ^^^ subWord (rotWord w3) ^^^ rc2
  let w5 := w4 ^^^ w3
  ⟨toState (w0 ++ w1), toState (w2 ++ w3), toState (w4 ++ w5)⟩

/-- R60: KEY k. It never faults with a cause of its own, and it completes in the accepting step at both levels (R88). -/
def execKey (k : Block) (s : State) : Result :=
  whenAccepting s (.next (loadKeys (keyExpand k) s))

end Sys2Proof.Machine
end

