-- ==== Sys2Proof/Machine/GaloisField.lean ====
section
/-! DEFINITION. The GF(2^4) multiplier (43_substitution_gf.md R68 to R73), by the loop of R71 over unbounded naturals (00_scope.md R8). -/

namespace Sys2Proof.Machine

/-- R5, R68: the field polynomial x^4 + x + 1. -/
def fieldPolynomial : Nat :=
  0b10011

/-- R71: left-shift without truncation, then reduce if bit 4 is set. The test comes after the shift and before any mask
(90_conflicts.md C6). -/
def gfDouble (a : Nat) : Nat :=
  let a' := a <<< 1
  if a' &&& 0x10 ≠ 0 then a' ^^^ fieldPolynomial else a'

/-- R71: the while loop, with the number of iterations left in `fuel`. It stops by itself when a or b is 0. -/
def gfLoop : (fuel a b p : Nat) → Nat
  | 0, _, _, p => p
  | fuel + 1, a, b, p =>
    if a ≠ 0 ∧ b ≠ 0 then
      gfLoop fuel (gfDouble a) (b >>> 1) (if b &&& 1 = 1 then p ^^^ a else p)
    else p

/-- R71: GFMul(a, b), both operands masked to 4 bits on entry (R70). b has four bits, so the loop runs at most four times. -/
def gfMul (a b : Nibble) : Nibble :=
  BitVec.ofNat 4 (gfLoop 4 (a.toNat &&& 0xF) (b.toNat &&& 0xF) 0)

end Sys2Proof.Machine
end

