-- ==== Sys2Proof/Machine/Transforms.lean ====
section
/-! DEFINITION. Key-add, row-shift and column-mix (44_state_transforms.md R74 to R77), by position index only (10_state.md R13). -/

namespace Sys2Proof.Machine

/-- R74: ARK, the nibble-wise XOR of a round key and a State. -/
def ark (k s : Nibbles) : Nibbles :=
  ⟨k.n0 ^^^ s.n0, k.n1 ^^^ s.n1, k.n2 ^^^ s.n2, k.n3 ^^^ s.n3⟩

/-- R75: SR swaps positions 2 and 3. -/
def sr (s : Nibbles) : Nibbles :=
  ⟨s.n0, s.n1, s.n3, s.n2⟩

/-- R76: MC. Every term reads the input s. -/
def mc (s : Nibbles) : Nibbles where
  n0 := s.n0 ^^^ gfMul 4#4 s.n2
  n1 := s.n1 ^^^ gfMul 4#4 s.n3
  n2 := s.n2 ^^^ gfMul 4#4 s.n0
  n3 := s.n3 ^^^ gfMul 4#4 s.n1

/-- R77: IMC. Every term reads the input s. -/
def imc (s : Nibbles) : Nibbles where
  n0 := gfMul 9#4 s.n0 ^^^ gfMul 2#4 s.n2
  n1 := gfMul 9#4 s.n1 ^^^ gfMul 2#4 s.n3
  n2 := gfMul 9#4 s.n2 ^^^ gfMul 2#4 s.n0
  n3 := gfMul 9#4 s.n3 ^^^ gfMul 2#4 s.n1

end Sys2Proof.Machine
end

