-- ==== Sys2Proof/Machine/Pipeline.lean ====
section
/-! DEFINITION. The encryption/decryption pipeline: the two datapaths (45_pipeline_commands.md R81, R83), the ENC and DEC commands
(R82, R84 in the atomic model; their acceptance by R86, R87 at stage level) and the stage steps (R86 to R88). -/

namespace Sys2Proof.Machine

/-- R81: Encrypt(RK, p). -/
def encrypt (rk : RoundKeys) (p : Block) : Nibbles :=
  let s1 := ark rk.pre (toState p)
  let s2 := mc (sr (nsub s1))
  let s3 := ark rk.round1 s2
  let s4 := sr (nsub s3)
  ark rk.round2 s4

/-- R83: Decrypt(RK, c). -/
def decrypt (rk : RoundKeys) (c : Block) : Nibbles :=
  let t1 := ark rk.round2 (toState c)
  let t2 := insub (sr t1)
  let t3 := imc (ark rk.round1 t2)
  let t4 := insub (sr t3)
  ark rk.pre t4

/-- R80, R82, R86: ENC p. -/
def execEnc (p : Block) (s : State) : Result :=
  whenAccepting s <| whenKeyed s <|
    match s.level with
    | .atomic => withRoundKeys s fun rk => .next (deliver (encrypt rk p) s)
    | .stages => .next (beginStages (toState p) .e1 s)

/-- R80, R84, R87: DEC c. -/
def execDec (c : Block) (s : State) : Result :=
  whenAccepting s <| whenKeyed s <|
    match s.level with
    | .atomic => withRoundKeys s fun rk => .next (deliver (decrypt rk c) s)
    | .stages => .next (beginStages (toState c) .d1 s)

/-- R86, R87: one stage step, an internal step with no host move (R88). With STAGE = Idle nothing is in progress and nothing happens
(R105). -/
def runStage (s : State) : Result :=
  match s.stage with
  | .idle => .next s
  | .e1 => withValue s.rk0 fun k => withValue s.sreg fun v => .next (toStage (ark k v) .e2 s)
  | .e2 => withValue s.sreg fun v => .next (toStage (mc (sr (nsub v))) .e3 s)
  | .e3 => withValue s.rk1 fun k => withValue s.sreg fun v => .next (toStage (ark k v) .e4 s)
  | .e4 => withValue s.sreg fun v => .next (toStage (sr (nsub v)) .e5 s)
  | .e5 => withValue s.rk2 fun k => withValue s.sreg fun v => .next (toStage (ark k v) .e6 s)
  | .e6 => withValue s.sreg fun v => .next (finishStages v s)
  | .d1 => withValue s.rk2 fun k => withValue s.sreg fun v => .next (toStage (ark k v) .d2 s)
  | .d2 => withValue s.sreg fun v => .next (toStage (insub (sr v)) .d3 s)
  | .d3 => withValue s.rk1 fun k => withValue s.sreg fun v => .next (toStage (imc (ark k v)) .d4 s)
  | .d4 => withValue s.sreg fun v => .next (toStage (insub (sr v)) .d5 s)
  | .d5 => withValue s.rk0 fun k => withValue s.sreg fun v => .next (toStage (ark k v) .d6 s)
  | .d6 => withValue s.sreg fun v => .next (finishStages v s)

end Sys2Proof.Machine
end

