-- ==== Sys2Proof/Machine/Dispatch.lean ====
section
/-! DEFINITION. One arm per command (30_encoding.md R39). -/

namespace Sys2Proof.Machine

def exec (i : Instr) (s : State) : Host.Outcome State Fault Refusal :=
  match i with
  | .key k => Sys2Proof.Machine.execKey k s
  | .enc p => Sys2Proof.Machine.execEnc p s
  | .dec c => Sys2Proof.Machine.execDec c s

end Sys2Proof.Machine
end

