-- ==== Sys2Proof/Machine/CommandPort.lean ====
section
/-! DEFINITION. What one step of the block does with the host's next move: accept a command word (45_pipeline_commands.md R80,
60_exceptions.md R96), run a stage (R86 to R88), or reset (70_reset_and_hazards.md R104). The block fetches nothing (20_memory.md R35):
its commands come from the host, in order (R33). -/

namespace Sys2Proof.Machine

/-- R80, R96: Step(CMD), the checks in the order written. -/
def acceptWord (w : CommandWord) (s : State) : Result :=
  whenAccepting s <|
    match decode w with
    | .reserved => .next (raiseFault .illegalCommand s)
    | .command i => exec i s

/-- One step. Reset takes effect at any time (R104); a command is presented only when the block is idle (R108 duty 1), and until then
the stages run; with nothing presented an idle block does nothing (R105). Log entries 3 to 7. -/
def hostTurn (s : State) : Result :=
  match s.host with
  | [] => runStage s
  | .hold :: rest => runStage { s with host := rest }
  | .reset :: rest => .next (applyReset { s with host := rest })
  | .present w :: rest => if s.stage = .idle then acceptWord w { s with host := rest } else runStage s

/-- Put a command word before the host's other moves. -/
def placeWord (s : State) (w : CommandWord) : State :=
  { s with host := .present w :: s.host }

end Sys2Proof.Machine
end

