-- ==== Sys2Proof/Machine/Step.lean ====
section
/-! DEFINITION. The step of the machine, and how a command word comes to be the next one accepted. -/

namespace Sys2Proof.Machine

/-- R80, R86 to R88, R104: one step from the host's next move. -/
def step (s : State) : Host.Outcome State Fault Refusal :=
  hostTurn s

/-- The host presents the word next. Commands come in on the command port (R35, R37), so nothing else has to be set. A number wider
than 18 bits is no command word: nothing is placed and the state stays as it is, so a wide number is never cut down to another
command. DESIGN CHOICE, log entry 10. -/
def State.withFetchWord (s : State) (nbits w : Nat) : State :=
  match commandWordOf nbits w with
  | some c => placeWord s c
  | none => s

end Sys2Proof.Machine
end

