-- ==== Sys2Proof/Machine/HostInterface.lean ====
section
/-! DEFINITION. What the host sees of the block and what the host's adapter must do: reads of STATUS and DOUT (10_state.md R15, R16,
R23; 20_memory.md R31), the observation of a run (70_reset_and_hazards.md R110), and the width check at the host boundary
(60_exceptions.md R99). None of these changes the block's state. -/

namespace Sys2Proof.Machine

/-- R16: the host may read STATUS at any time. -/
def readStatus (s : State) : BitVec 8 :=
  statusWord s.status

/-- R23, R108 duty 2: a read of DOUT, refused unless BUSY = 0 and DOUT_VALID = 1. -/
def readDout (s : State) : Except Refusal Block :=
  if s.status.busy = false ∧ s.status.doutValid = true then
    match s.dout with
    | some v => .ok v
    | none => .error .noValue
  else .error .doutNotValid

/-- R30, R88: S as an observer sees it. Its intermediate values while BUSY = 1 are not observable. Log entry 13. -/
def observedS (s : State) : Option Nibbles :=
  if s.status.busy then none else s.sreg

/-- R110: the observation of a finished run. -/
structure Observation where
  rk0    : Option Nibbles
  rk1    : Option Nibbles
  rk2    : Option Nibbles
  sreg   : Option Nibbles
  dout   : Option Block
  status : BitVec 8
  deriving DecidableEq, Repr

/-- R110, R23: the tuple (RK[0..2], S, DOUT, STATUS), with "no value" for a DOUT the host may not read and, while a command is in
progress, for S. RK and S are in the model's observation only, no host reads them (92_eei_decisions.md D27). -/
def observe (s : State) : Observation where
  rk0    := s.rk0
  rk1    := s.rk1
  rk2    := s.rk2
  sreg   := observedS s
  dout   := (readDout s).toOption
  status := readStatus s

/-- R43, R99 (90_conflicts.md C4): the name of the error for a value above 0xFFFF. -/
def widthError : Mnemonic → HostError
  | .KEY => .invalidKeyWidth
  | .ENC => .outOfRange
  | .DEC => .outOfRange

/-- R99: the host adapter. It refuses a wider value and sends no command; it never truncates or wraps. -/
def submit (r : Request) : Except HostError CommandWord :=
  if r.wellFormed then .ok (encode (instrOf r.op (BitVec.ofNat 16 r.operand)))
  else .error (widthError r.op)

end Sys2Proof.Machine
end

