-- ==== Sys2Proof/Machine/Assembler.lean ====
section
/-! DEFINITION. The assembler of 30_encoding.md R42 to R45, on a line given as its characters. It is the host's tool, not the block's:
a line it refuses sends no command (60_exceptions.md R99). What R42 leaves open is log entry 11. -/

namespace Sys2Proof.Machine

/-- The value of one digit in a base up to 16, hexadecimal letters in either case. -/
def digitValue (base : Nat) (c : Char) : Option Nat :=
  let n := c.toNat
  let v :=
    if 48 ≤ n ∧ n ≤ 57 then n - 48
    else if 65 ≤ n ∧ n ≤ 70 then n - 55
    else if 97 ≤ n ∧ n ≤ 102 then n - 87
    else 16
  if v < base then some v else none

/-- R42: the digits of a literal, `_` allowed between two digits and ignored: the value and the number of digits. -/
def readDigits (base : Nat) : (value count : Nat) → (afterDigit : Bool) → List Char → Option (Nat × Nat)
  | value, count, afterDigit, [] => if afterDigit then some (value, count) else none
  | value, count, _, c :: rest =>
    if c = '_' then
      if count = 0 then none else readDigits base value count false rest
    else
      match digitValue base c with
      | some d => readDigits base (value * base + d) (count + 1) true rest
      | none => none

/-- R42: a literal's value, and whether it has no more digits than its form allows (4 hexadecimal, 16 binary). -/
def readImmediate : List Char → Option (Nat × Bool)
  | '0' :: 'x' :: ds => (readDigits 16 0 0 false ds).map fun r => (r.1, decide (r.2 ≤ 4))
  | '0' :: 'b' :: ds => (readDigits 2 0 0 false ds).map fun r => (r.1, decide (r.2 ≤ 16))
  | ds => (readDigits 10 0 0 false ds).map fun r => (r.1, true)

/-- R42: KEY, ENC or DEC, in either case. -/
def readMnemonic (cs : List Char) : Option Mnemonic :=
  if cs = ['K', 'E', 'Y'] ∨ cs = ['k', 'e', 'y'] then some .KEY
  else if cs = ['E', 'N', 'C'] ∨ cs = ['e', 'n', 'c'] then some .ENC
  else if cs = ['D', 'E', 'C'] ∨ cs = ['d', 'e', 'c'] then some .DEC
  else none

/-- White space between the parts of a line. -/
def isBlank (c : Char) : Bool :=
  c = ' ' || c = '\t' || c = '\r'

/-- R42: the line less its comment, which starts with `;` and runs to the end of the line. -/
def dropComment : List Char → List Char
  | [] => []
  | c :: rest => if c = ';' then [] else c :: dropComment rest

/-- The parts of a line between white space; `part` is the part being read. -/
def splitParts : (part : List Char) → List Char → List (List Char)
  | part, [] => if part = [] then [] else [part]
  | part, c :: rest =>
    if isBlank c then
      if part = [] then splitParts [] rest else part :: splitParts [] rest
    else splitParts (part ++ [c]) rest

/-- R43, R45: one command line. The width check comes before the count of digits. -/
def assembleCommand (mnemonic immediate : List Char) : Except AsmError CommandWord :=
  match readMnemonic mnemonic, readImmediate immediate with
  | none, _ => .error .unknownMnemonic
  | some _, none => .error .badLiteral
  | some m, some (value, fits) =>
    match submit ⟨m, value⟩ with
    | .error e => .error (.tooWide e)
    | .ok w => if fits then .ok w else .error .badLiteral

/-- R42: one line. A blank or comment-only line gives no command word. -/
def assembleLine (line : List Char) : Except AsmError (Option CommandWord) :=
  match splitParts [] (dropComment line) with
  | [] => .ok none
  | [m, v] => (assembleCommand m v).map some
  | _ => .error .malformedLine

/-- R42, R44: a program is a list of lines, each at most one command word; the first refused line refuses it. -/
def assemble : List (List Char) → Except AsmError (List CommandWord)
  | [] => .ok []
  | line :: rest =>
    match assembleLine line with
    | .error e => .error e
    | .ok none => assemble rest
    | .ok (some w) => (assemble rest).map (w :: ·)

/-- A hexadecimal digit. -/
def hexDigit (n : Nibble) : Char :=
  Char.ofNat (if n.toNat < 10 then 48 + n.toNat else 55 + n.toNat)

/-- R42: the characters of a mnemonic. -/
def mnemonicText : Mnemonic → List Char
  | .KEY => ['K', 'E', 'Y']
  | .ENC => ['E', 'N', 'C']
  | .DEC => ['D', 'E', 'C']

/-- R42: a command written as a line, its operand in four hexadecimal digits. -/
def lineOf (i : Instr) : List Char :=
  let v := operandOf i
  mnemonicText (mnemonicOf i) ++
    [' ', '0', 'x', hexDigit (v.extractLsb' 12 4), hexDigit (v.extractLsb' 8 4), hexDigit (v.extractLsb' 4 4),
      hexDigit (v.extractLsb' 0 4)]

end Sys2Proof.Machine
end

