-- ==== Sys2Proof/Safety.lean ====
section
/-! DEFINITION. What counts as a safe run, in the terms the claims use: the start and the end of a run (70_reset_and_hazards.md R106,
R110) and the invariants of the machine (10_state.md R16, R19, R24; 60_exceptions.md R91). -/

namespace Sys2Proof.Safety

open Sys2Proof.Machine

/-- R110: a run is reset, then a list of command words sent in order, at either level. -/
def runStart (level : Level) (words : List CommandWord) : State :=
  { State.reset with level := level, host := words.map .present }

/-- R95: a command word is presented to an idle block with FAULT = 1. The word is sent in vain: no step is possible. -/
abbrev Stuck (s : State) : Prop :=
  s.status.fault = true ∧ s.stage = .idle ∧ ∃ w rest, s.host = .present w :: rest

/-- R110: the block is idle and either the host has sent its last command or the block is stuck, so that no word still to be sent is
accepted: the end states of the programs P3 and P4 of 95_test_vectors.md. DEDUCED, log entry 14. -/
abbrev Finished (s : State) : Prop :=
  (s.host = [] ∧ s.stage = .idle) ∨ Stuck s

/-- R95, R110: a finished run with FAULT = 1 has not succeeded. -/
abbrev Succeeded (s : State) : Prop :=
  Finished s ∧ s.status.fault = false

/-- R60: the three round-key registers hold these keys. -/
abbrev HoldsKeys (s : State) (rk : RoundKeys) : Prop :=
  s.rk0 = some rk.pre ∧ s.rk1 = some rk.round1 ∧ s.rk2 = some rk.round2

/-- The block takes a command: no fault, and idle (R60, R95, R88). -/
abbrev Accepting (s : State) : Prop :=
  s.status.fault = false ∧ s.stage = .idle

/-- The invariant of a run, R24 with R16, R19 and R91. -/
structure Inv (s : State) : Prop where
  /-- R24: KEY_VALID = 1 exactly when RK[0] has a value -/
  rk0_valid : s.rk0.isSome = s.status.keyValid
  /-- R24: and RK[1] -/
  rk1_valid : s.rk1.isSome = s.status.keyValid
  /-- R24: and RK[2] -/
  rk2_valid : s.rk2.isSome = s.status.keyValid
  /-- R24, at a command boundary: DOUT_VALID = 1 exactly when DOUT has a value -/
  dout_valid : s.stage = .idle → s.dout.isSome = s.status.doutValid
  /-- R24, at a command boundary: S has a value whenever DOUT_VALID = 1, and then ToBlock(S) = DOUT -/
  dout_is_s : s.stage = .idle → s.status.doutValid = true → ∃ v, s.sreg = some v ∧ s.dout = some (toBlock v)
  /-- R19: BUSY = 1 exactly when STAGE is not Idle -/
  busy_stage : s.status.busy = true ↔ s.stage ≠ .idle
  /-- R16, R19: in the atomic model the block is idle between steps -/
  atomic_idle : s.level = .atomic → s.stage = .idle
  /-- R86, R87, R96: while a command is in progress S has a value, the keys are valid, DOUT_VALID = 0 and no fault is recorded -/
  in_progress : s.stage ≠ .idle →
    s.sreg.isSome = true ∧ s.status.keyValid = true ∧ s.status.doutValid = false ∧ s.status.fault = false
  /-- R16, R94: CAUSE is written with FAULT, so it is 0 exactly when FAULT = 0 -/
  fault_cause : s.status.fault = true ↔ s.status.cause ≠ 0b00#2
  /-- R91: CAUSE = 3 is never raised -/
  cause_reserved : s.status.cause ≠ 0b11#2

/-- R14, R60: the round keys in the registers are always those of one key. -/
def KeysExpanded (s : State) : Prop :=
  s.status.keyValid = true → ∃ k, HoldsKeys s (keyExpand k)

end Sys2Proof.Safety
end

