-- ==== Sys2Proof/Certificates/Slice0/Obligations.lean ====
section
/-! DEFINITION. The statements about the machine, one definition each, in the order of the spec's files. -/

open Sys2Proof Sys2Proof.Machine Sys2Proof.Safety

/-! ### 10_state.md: the registers -/

/-- R22 (and R23 for "no value"): every register of the block right after reset. -/
def Obligations.ResetStateIsAsGiven : Prop :=
  State.reset.sreg = none ∧ State.reset.rk0 = none ∧ State.reset.rk1 = none ∧ State.reset.rk2 = none ∧
    State.reset.dout = none ∧ State.reset.status.keyValid = false ∧ State.reset.status.doutValid = false ∧
    State.reset.status.busy = false ∧ State.reset.status.fault = false ∧ State.reset.status.cause = 0#2 ∧
    readStatus State.reset = 0x00#8 ∧ State.reset.stage = .idle

/-- R16: where each field of STATUS stands in the 8-bit word, and that bits 7:6 read 0. -/
def Obligations.StatusWordLayout : Prop :=
  ∀ s : State,
    (readStatus s).getLsbD 0 = s.status.keyValid ∧ (readStatus s).getLsbD 1 = s.status.doutValid ∧
    (readStatus s).getLsbD 2 = s.status.busy ∧ (readStatus s).getLsbD 3 = s.status.fault ∧
    (readStatus s).extractLsb' 4 2 = s.status.cause ∧ (readStatus s).extractLsb' 6 2 = 0#2

/-- R14: the round keys change only by an accepted KEY, which loads all three, or by reset. -/
def Obligations.RoundKeysChangeOnlyByKeyOrReset : Prop :=
  ∀ s t : State, step s = .next t →
    (t.rk0 = s.rk0 ∧ t.rk1 = s.rk1 ∧ t.rk2 = s.rk2) ∨
    (∃ rest, s.host = .reset :: rest) ∨
    (∃ w rest k, s.host = .present w :: rest ∧ Accepting s ∧ decode w = .command (.key k) ∧ HoldsKeys t (keyExpand k))

/-- R15, R82, R84, R86, R87: DOUT changes only when ENC or DEC completes, and then it is ToBlock(S), or by reset. -/
def Obligations.DoutChangesOnlyByCompletionOrReset : Prop :=
  ∀ s t : State, step s = .next t →
    t.dout = s.dout ∨
    (∃ rest, s.host = .reset :: rest) ∨
    (∃ v, t.sreg = some v ∧ t.dout = some (toBlock v) ∧ t.status.doutValid = true ∧ t.stage = .idle ∧
      (s.stage = .e6 ∨ s.stage = .d6 ∨
        ∃ w rest x, s.host = .present w :: rest ∧ Accepting s ∧ s.level = .atomic ∧
          (decode w = .command (.enc x) ∨ decode w = .command (.dec x))))

/-- R16, R104: with no reset, KEY_VALID, FAULT and CAUSE are never cleared, and in the atomic model neither is DOUT_VALID. -/
def Obligations.OnlyResetClearsStatus : Prop :=
  ∀ s t : State, step s = .next t → (∀ rest, s.host ≠ .reset :: rest) →
    (s.status.keyValid = true → t.status.keyValid = true) ∧
    (s.status.fault = true → t.status.fault = true ∧ t.status.cause = s.status.cause) ∧
    (s.level = .atomic → s.status.doutValid = true → t.status.doutValid = true)

/-- R23, R108 duty 2: a host read of DOUT is refused unless BUSY = 0 and DOUT_VALID = 1. Where the invariant of R24 holds a permitted
read gives ToBlock(S). -/
def Obligations.DoutReadOnlyWhenValid : Prop :=
  (∀ s : State, s.status.doutValid = false ∨ s.status.busy = true → readDout s = .error .doutNotValid) ∧
  (∀ s : State, Inv s → s.status.busy = false → s.status.doutValid = true →
    ∃ v, s.sreg = some v ∧ readDout s = .ok (toBlock v))

/-! ### 10_state.md R24: invariants -/

/-- R24 with R16, R19, R91: the invariant holds where a run starts, at either level and whatever words the host will send; so at
reset. -/
def Obligations.RunStartsInInvariant : Prop :=
  Inv State.reset ∧ KeysExpanded State.reset ∧
    ∀ level words, Inv (runStart level words) ∧ KeysExpanded (runStart level words)

/-- R24 with R16, R19, R91: every step keeps the invariant, from every state that has it. -/
def Obligations.StepKeepsInv : Prop :=
  ∀ s t : State, Inv s → step s = .next t → Inv t

/-- R14, R60: in every step the round keys stay the expansion of one key. -/
def Obligations.StepKeepsKeysExpanded : Prop :=
  ∀ s t : State, KeysExpanded s → step s = .next t → KeysExpanded t

/-- R95, R108: where the invariant holds a step is never refused, and it stops only when a command is presented with FAULT = 1. In every
other such state it answers a next state. -/
def Obligations.StepStopsOnlyWhenStuck : Prop :=
  ∀ s : State, Inv s →
    (∀ r, step s ≠ .refused r) ∧
    (step s = .fault .stuck ↔ s.status.fault = true ∧ ∃ w rest, s.host = .present w :: rest) ∧
    (¬(s.status.fault = true ∧ ∃ w rest, s.host = .present w :: rest) → ∃ t, step s = .next t)

/-! ### 30_encoding.md: the command word -/

/-- R39, R45: decoding an encoded command gives it back, with every operand; and a word that decodes to a command is that command's
only word. -/
def Obligations.DecodeAndEncodeAgree : Prop :=
  (∀ i : Instr, i.wellFormed = true → decode (encode i) = .command i) ∧
  (∀ (w : CommandWord) (i : Instr), decode w = .command i → encode i = w)

/-- R39: the opcode table by match and mask, decoding total, and the operand IMM16. -/
def Obligations.DecodeFollowsTheOpcodeTable : Prop :=
  ∀ w : CommandWord,
    (w &&& 0x30000#18 = 0x10000#18 → decode w = .command (.key (w.setWidth 16))) ∧
    (w &&& 0x30000#18 = 0x20000#18 → decode w = .command (.enc (w.setWidth 16))) ∧
    (w &&& 0x30000#18 = 0x30000#18 → decode w = .command (.dec (w.setWidth 16))) ∧
    (w &&& 0x30000#18 = 0x00000#18 → decode w = .reserved) ∧
    (∀ row ∈ opcodeTable, w &&& row.mask = row.pattern ↔ ∃ i, decode w = .command i ∧ mnemonicOf i = row.mnemonic)

/-- R45: the spec's five example words, written out. -/
def Obligations.ExampleWordsDecode : Prop :=
  decode 0b01_0100_1010_1111_0101#18 = .command (.key 0x4AF5#16) ∧
  decode 0b10_1101_0111_0010_1000#18 = .command (.enc 0xD728#16) ∧
  decode 0b11_0010_0100_1110_1100#18 = .command (.dec 0x24EC#16) ∧
  decode 0x00000#18 = .reserved ∧ decode 0x0FFFF#18 = .reserved

/-- R40, R92: a word with OP = 0b00 spells no command; accepted, it raises IllegalCommand, which changes FAULT and CAUSE only. -/
def Obligations.ReservedWordRaisesIllegalCommand : Prop :=
  (∀ w : CommandWord, decode w = .reserved ↔ w.toNat < 0x10000) ∧
  (∀ (s : State) (w : CommandWord) (rest : List HostMove), w.toNat < 0x10000 → Accepting s → s.host = .present w :: rest →
    step s = .next { s with host := rest, status := { s.status with fault := true, cause := 1#2 } })

/-- The model's own numbering of table words (log entry 10), and how a word comes to be accepted next (log entry 3). A number wider
than 18 bits decodes to nothing and places nothing, the model's choice too (log entry 10). -/
def Obligations.TableWordsDecodeAndRun : Prop :=
  (∀ i : Instr,
    decodeTableWord 18 (encode i).toNat = some i ∧ decodeTableWord 24 (encode i).toNat = some i ∧
    ∀ s : State, Accepting s →
      step (s.withFetchWord 18 (encode i).toNat) = exec i s ∧ step (s.withFetchWord 24 (encode i).toNat) = exec i s) ∧
  ∀ (nbits w : Nat) (s : State), 2 ^ 18 ≤ w % 2 ^ nbits → decodeTableWord nbits w = none ∧ s.withFetchWord nbits w = s

/-- R45, R99: the host adapter sends a value that fits as OP·2^16 + value, and refuses a wider one under the entry's own name. -/
def Obligations.AdapterSendsOrRefuses : Prop :=
  ∀ (m : Mnemonic) (n : Nat),
    (n ≤ 0xFFFF → ∃ w, submit ⟨m, n⟩ = .ok w ∧ w.toNat = (opOf m).toNat * 0x10000 + n ∧
      ∃ v : Block, v.toNat = n ∧ decode w = .command (instrOf m v)) ∧
    (0xFFFF < n → submit ⟨m, n⟩ = .error (match m with | .KEY => .invalidKeyWidth | .ENC => .outOfRange | .DEC => .outOfRange))

/-- R43: the assembler refuses an immediate above 65535 and never truncates or wraps: what it accepts carries the written value. -/
def Obligations.AssemblerNeverTruncates : Prop :=
  ∀ (m : Mnemonic) (cs : List Char),
    (∀ v fits, readImmediate cs = some (v, fits) → 65535 < v →
      assembleCommand (mnemonicText m) cs =
        .error (.tooWide (match m with | .KEY => .invalidKeyWidth | .ENC => .outOfRange | .DEC => .outOfRange))) ∧
    (∀ w, assembleCommand (mnemonicText m) cs = .ok w →
      ∃ v, v ≤ 65535 ∧ readImmediate cs = some (v, true) ∧ opField w = opOf m ∧ (immField w).toNat = v)

/-- R42, R44, R45: every command, written as a line with its operand in four hexadecimal digits, assembles to its word. -/
def Obligations.AssemblerReadsEveryCommand : Prop :=
  ∀ i : Instr, assembleLine (lineOf i) = .ok (some (encode i))

/-! ### 41_block_converter.md -/

/-- R47: ToState with its crossed positions, by weight of the bits. -/
def Obligations.ToStateCrossesPositions : Prop :=
  (∀ n : Block,
    (toState n).n0.toNat = n.toNat / 4096 ∧ (toState n).n2.toNat = n.toNat / 256 % 16 ∧
    (toState n).n1.toNat = n.toNat / 16 % 16 ∧ (toState n).n3.toNat = n.toNat % 16) ∧
  toState 0x1234 = ⟨0x1, 0x3, 0x2, 0x4⟩ ∧ toState 0xD728 = ⟨0xD, 0x2, 0x7, 0x8⟩

/-- R48: ToBlock, whose four fields do not overlap, so the value is their sum. -/
def Obligations.ToBlockCrossesPositions : Prop :=
  (∀ s : Nibbles, (toBlock s).toNat = s.n0.toNat * 4096 + s.n2.toNat * 256 + s.n1.toNat * 16 + s.n3.toNat) ∧
  toBlock ⟨0x2, 0xE, 0x4, 0xC⟩ = 0x24EC ∧ toBlock ⟨0x1, 0x3, 0x2, 0x4⟩ = 0x1234

/-- R49: the converter is a bijection and the two directions are inverse. -/
def Obligations.ConverterIsBijective : Prop :=
  (∀ n : Block, toBlock (toState n) = n) ∧ (∀ s : Nibbles, toState (toBlock s) = s) ∧
    Function.Bijective toState ∧ Function.Bijective toBlock

/-! ### 42_key_schedule.md -/

/-- R52: RotWord swaps the nibbles; it is an involution, its fixed points are the words of two equal nibbles, and it is the rotation
by one nibble in either direction. -/
def Obligations.RotWordSwapsNibbles : Prop :=
  (∀ w : Word,
    (rotWord w).toNat = w.toNat % 16 * 16 + w.toNat / 16 ∧ rotWord (rotWord w) = w ∧
    (rotWord w = w ↔ highNibble w = lowNibble w) ∧ rotWord w = w.rotateLeft 4 ∧ rotWord w = w.rotateRight 4) ∧
  rotWord 0xF5 = 0x5F ∧ rotWord 0x28 = 0x82

/-- R53: SubWord is the forward S-box on each nibble. -/
def Obligations.SubWordUsesTheForwardBox : Prop :=
  (∀ w : Word, highNibble (subWord w) = sbox (highNibble w) ∧ lowNibble (subWord w) = sbox (lowNibble w)) ∧
  (∀ n : Nibble, sbox n = n ↔ n = 0xC) ∧
  subWord 0x00 = 0x99 ∧ subWord 0xCC = 0xCC ∧ subWord 0x5F = 0x17 ∧ subWord 0x82 = 0x6A

/-- R54: the round constants and the bits they flip. -/
def Obligations.RoundConstantsFlipHighBits : Prop :=
  rc1 = 0b1000_0000 ∧ rc2 = 0b0011_0000 ∧
  ∀ (w : Word) (i : Fin 8),
    (w ^^^ rc1).getLsbD i = (w.getLsbD i ^^ decide (i = 7)) ∧
    (w ^^^ rc2).getLsbD i = (w.getLsbD i ^^ decide (i = 5 ∨ i = 4))

/-- R51, R55 to R59: the recurrence of the six words and the three round keys they form. -/
def Obligations.KeyExpansionRecurrence : Prop :=
  (∀ k : Block, ∃ w0 w1 w2 w3 w4 w5 : Word,
    w0.toNat = k.toNat / 256 ∧ w1.toNat = k.toNat % 256 ∧ w0 ++ w1 = k ∧
    w2 = w0 ^^^ subWord (rotWord w1) ^^^ 0x80 ∧ w3 = w2 ^^^ w1 ∧
    w4 = w2 ^^^ subWord (rotWord w3) ^^^ 0x30 ∧ w5 = w4 ^^^ w3 ∧
    keyExpand k = ⟨toState (w0 ++ w1), toState (w2 ++ w3), toState (w4 ++ w5)⟩) ∧
  keyExpand 0x4AF5 = ⟨⟨0x4, 0xF, 0xA, 0x5⟩, ⟨0xD, 0x2, 0xD, 0x8⟩, ⟨0x8, 0xA, 0x7, 0xF⟩⟩ ∧
  keyExpand 0x0000 = ⟨toState 0x0000, toState 0x1919, toState 0x0D14⟩ ∧
  keyExpand 0xFFFF = ⟨toState 0xFFFF, toState 0x08F7, toState 0x6F98⟩

/-- R61: the pre-round key is the key itself, so expansion is injective. -/
def Obligations.KeyScheduleLaws : Prop :=
  (∀ k : Block, toBlock (keyExpand k).pre = k) ∧ Function.Injective keyExpand

/-- R60: an accepted KEY loads the expanded key and sets KEY_VALID, and leaves everything else; a later KEY replaces all of it; the
same key again changes nothing. At both levels. -/
def Obligations.KeyLoadsTheRoundKeys : Prop :=
  (∀ (k : Block) (s : State), Accepting s →
    ∃ t, exec (.key k) s = .next t ∧ HoldsKeys t (keyExpand k) ∧ t.status = { s.status with keyValid := true } ∧
      t.sreg = s.sreg ∧ t.dout = s.dout ∧ t.stage = .idle ∧ t.level = s.level ∧ t.host = s.host ∧
      exec (.key k) t = .next t ∧ ∀ k', exec (.key k') t = exec (.key k') s) ∧
  (∃ t, exec (.key 0x4AF5) State.reset = .next t ∧ t.rk0 = some ⟨0x4, 0xF, 0xA, 0x5⟩ ∧
    t.rk1 = some ⟨0xD, 0x2, 0xD, 0x8⟩ ∧ t.rk2 = some ⟨0x8, 0xA, 0x7, 0xF⟩ ∧ readStatus t = 0x01#8)

/-! ### 43_substitution_gf.md -/

/-- R62, R63: the sixteen entries of each table. -/
def Obligations.SubstitutionTables : Prop :=
  (List.finRange 16).map (fun i => sbox (BitVec.ofNat 4 i)) = [9, 4, 10, 11, 13, 1, 8, 5, 6, 2, 0, 3, 12, 14, 15, 7] ∧
  (List.finRange 16).map (fun i => sboxI (BitVec.ofNat 4 i)) = [10, 5, 9, 11, 1, 7, 8, 15, 6, 0, 2, 3, 12, 4, 13, 14]

/-- R64: the tables are mutually inverse. -/
def Obligations.TablesAreMutuallyInverse : Prop :=
  ∀ n : Nibble, sboxI (sbox n) = n ∧ sbox (sboxI n) = n

/-- R65, R66, R67: substitution of a State is by lane; the two are inverse; each commutes with every permutation of positions. -/
def Obligations.SubstitutionLaws : Prop :=
  (∀ (s : Nibbles) (i : Fin 4), lane (nsub s) i = sbox (lane s i) ∧ lane (insub s) i = sboxI (lane s i)) ∧
  (∀ s : Nibbles, insub (nsub s) = s ∧ nsub (insub s) = s) ∧
  (∀ (σ : Equiv.Perm (Fin 4)) (s s' : Nibbles), (∀ i, lane s' i = lane s (σ i)) →
    ∀ i, lane (nsub s') i = lane (nsub s) (σ i) ∧ lane (insub s') i = lane (insub s) (σ i)) ∧
  (∀ s : Nibbles, nsub (sr s) = sr (nsub s) ∧ insub (sr s) = sr (insub s)) ∧
  nsub ⟨0x9, 0xD, 0xD, 0xD⟩ = ⟨0x2, 0xE, 0xE, 0xE⟩ ∧ nsub ⟨0xC, 0xC, 0xC, 0xC⟩ = ⟨0xC, 0xC, 0xC, 0xC⟩ ∧
  insub ⟨0x2, 0x1, 0xB, 0xB⟩ = ⟨0x9, 0x5, 0x3, 0x3⟩ ∧ insub ⟨0x2, 0xE, 0xE, 0xE⟩ = ⟨0x9, 0xD, 0xD, 0xD⟩

/-- R71: the loop of the multiplier runs at most four times, so more fuel changes nothing; the first operand stays below 16 at the top
of every iteration, and so does the product. -/
def Obligations.MultiplierLoopStopsInFour : Prop :=
  (∀ (a b : Nibble) (fuel : Nat), 4 ≤ fuel → gfLoop fuel a.toNat b.toNat 0 = gfLoop 4 a.toNat b.toNat 0) ∧
  (∀ a : Nat, a < 16 → gfDouble a < 16) ∧
  (∀ (fuel a b p : Nat), a < 16 → p < 16 → gfLoop fuel a b p < 16) ∧
  (∀ b : Nibble, gfMul 0#4 b = 0#4 ∧ gfMul b 0#4 = 0#4)

/-- R68, R72: the product of the polynomials over GF(2) that two nibbles stand for differs from the nibble GFMul gives by a multiple of
x^4 + x + 1. -/
def Obligations.MultiplierIsTheFieldProduct : Prop :=
  let poly : Nibble → Polynomial (ZMod 2) := fun n => ∑ i : Fin 4, if n.getLsbD i then Polynomial.X ^ i.val else 0
  ∀ a b : Nibble, (Polynomial.X ^ 4 + Polynomial.X + 1 : Polynomial (ZMod 2)) ∣ poly a * poly b - poly (gfMul a b)

/-- R72: the field laws of the multiplier and the source's values (90_conflicts.md C2 for 4·4). -/
def Obligations.MultiplierLaws : Prop :=
  (∀ a b : Nibble, gfMul a b = gfMul b a) ∧
  (∀ a b c : Nibble, gfMul a (gfMul b c) = gfMul (gfMul a b) c) ∧
  (∀ a b c : Nibble, gfMul a (b ^^^ c) = gfMul a b ^^^ gfMul a c) ∧
  (∀ b : Nibble, gfMul 1#4 b = b ∧ gfMul 0#4 b = 0#4) ∧
  (∀ a : Nibble, a ≠ 0#4 → ∃! b : Nibble, gfMul a b = 1#4) ∧
  gfMul 2#4 1#4 = 2#4 ∧ gfMul 2#4 8#4 = 3#4 ∧ gfMul 4#4 4#4 = 3#4 ∧ gfMul 9#4 9#4 = 13#4

/-- R73: the three constant multipliers. -/
def Obligations.ConstantMultiplierTables : Prop :=
  (List.finRange 16).map (fun i => gfMul 2#4 (BitVec.ofNat 4 i)) =
    [0x0, 0x2, 0x4, 0x6, 0x8, 0xA, 0xC, 0xE, 0x3, 0x1, 0x7, 0x5, 0xB, 0x9, 0xF, 0xD] ∧
  (List.finRange 16).map (fun i => gfMul 4#4 (BitVec.ofNat 4 i)) =
    [0x0, 0x4, 0x8, 0xC, 0x3, 0x7, 0xB, 0xF, 0x6, 0x2, 0xE, 0xA, 0x5, 0x1, 0xD, 0x9] ∧
  (List.finRange 16).map (fun i => gfMul 9#4 (BitVec.ofNat 4 i)) =
    [0x0, 0x9, 0x1, 0x8, 0x2, 0xB, 0x3, 0xA, 0x4, 0xD, 0x5, 0xC, 0x6, 0xF, 0x7, 0xE]

/-! ### 44_state_transforms.md -/

/-- R74: key-add is the XOR lane by lane; it commutes and undoes itself. -/
def Obligations.KeyAddIsLaneXor : Prop :=
  (∀ (k s : Nibbles) (i : Fin 4), lane (ark k s) i = lane k i ^^^ lane s i) ∧
  (∀ k s : Nibbles, ark k s = ark s k ∧ ark k (ark k s) = s ∧ ark k k = ⟨0, 0, 0, 0⟩) ∧
  ark ⟨0x4, 0xF, 0xA, 0x5⟩ ⟨0xD, 0x2, 0x7, 0x8⟩ = ⟨0x9, 0xD, 0xD, 0xD⟩

/-- R75: row-shift swaps positions 2 and 3, leaves 0 and 1, and undoes itself. -/
def Obligations.RowShiftSwapsTwoAndThree : Prop :=
  (∀ s : Nibbles, lane (sr s) 0 = lane s 0 ∧ lane (sr s) 1 = lane s 1 ∧ lane (sr s) 2 = lane s 3 ∧ lane (sr s) 3 = lane s 2 ∧
    sr (sr s) = s ∧ (lane s 2 = lane s 3 → sr s = s)) ∧
  sr ⟨0x1, 0x2, 0x3, 0x4⟩ = ⟨0x1, 0x2, 0x4, 0x3⟩

/-- R76, R77: the two column mixes as 2×2 matrices over the position pairs (0, 2) and (1, 3), every term from the input. -/
def Obligations.ColumnMixMatrices : Prop :=
  (∀ s : Nibbles, ∀ c ∈ [((0 : Fin 4), (2 : Fin 4)), (1, 3)],
    lane (mc s) c.1 = gfMul 1#4 (lane s c.1) ^^^ gfMul 4#4 (lane s c.2) ∧
    lane (mc s) c.2 = gfMul 4#4 (lane s c.1) ^^^ gfMul 1#4 (lane s c.2) ∧
    lane (imc s) c.1 = gfMul 9#4 (lane s c.1) ^^^ gfMul 2#4 (lane s c.2) ∧
    lane (imc s) c.2 = gfMul 2#4 (lane s c.1) ^^^ gfMul 9#4 (lane s c.2)) ∧
  mc ⟨0, 0, 0, 0⟩ = ⟨0, 0, 0, 0⟩ ∧ mc ⟨0xF, 0xF, 0xF, 0xF⟩ = ⟨0x6, 0x6, 0x6, 0x6⟩ ∧
  mc ⟨0x2, 0xE, 0xE, 0xE⟩ = ⟨0xF, 0x3, 0x6, 0x3⟩ ∧ imc ⟨1, 0, 0, 0⟩ = ⟨0x9, 0, 0x2, 0⟩ ∧
  imc ⟨0xF, 0xF, 0xF, 0xF⟩ = ⟨0x3, 0x3, 0x3, 0x3⟩ ∧ imc ⟨0xF, 0x3, 0x6, 0x3⟩ = ⟨0x2, 0xE, 0xE, 0xE⟩

/-- R78: the inverse laws of the transforms. -/
def Obligations.TransformsUndoEachOther : Prop :=
  ∀ k s : Nibbles, ark k (ark k s) = s ∧ sr (sr s) = s ∧ imc (mc s) = s ∧ mc (imc s) = s

/-- R79: which lanes a lane of each transform's result depends on. -/
def Obligations.LaneStructure : Prop :=
  (∀ (s s' : Nibbles), lane s 0 = lane s' 0 → lane s 2 = lane s' 2 →
    lane (mc s) 0 = lane (mc s') 0 ∧ lane (mc s) 2 = lane (mc s') 2 ∧
    lane (imc s) 0 = lane (imc s') 0 ∧ lane (imc s) 2 = lane (imc s') 2) ∧
  (∀ (s s' : Nibbles), lane s 1 = lane s' 1 → lane s 3 = lane s' 3 →
    lane (mc s) 1 = lane (mc s') 1 ∧ lane (mc s) 3 = lane (mc s') 3 ∧
    lane (imc s) 1 = lane (imc s') 1 ∧ lane (imc s) 3 = lane (imc s') 3) ∧
  (∀ (k s s' : Nibbles) (i : Fin 4), lane s i = lane s' i →
    lane (ark k s) i = lane (ark k s') i ∧ lane (nsub s) i = lane (nsub s') i ∧ lane (insub s) i = lane (insub s') i)

/-! ### 45_pipeline_commands.md -/

/-- R80: when the block accepts a word that decodes to a command, the step is that command's meaning, at either level. -/
def Obligations.StepRunsTheDecodedCommand : Prop :=
  ∀ (s : State) (w : CommandWord) (rest : List HostMove) (i : Instr), Accepting s → s.host = .present w :: rest →
    decode w = .command i → step s = exec i { s with host := rest }

/-- R81, R82: ENC in the atomic model, with its exception NoKey and its frame. -/
def Obligations.EncDeliversTheCiphertext : Prop :=
  (∀ (p : Block) (s : State) (rk : RoundKeys), Accepting s → s.level = .atomic → s.status.keyValid = true → HoldsKeys s rk →
    let s1 := ark rk.pre (toState p)
    let s2 := mc (sr (nsub s1))
    let s3 := ark rk.round1 s2
    let s4 := sr (nsub s3)
    let s5 := ark rk.round2 s4
    exec (.enc p) s =
      .next { s with sreg := some s5, dout := some (toBlock s5), status := { s.status with doutValid := true } }) ∧
  (∀ (p : Block) (s : State), Accepting s → s.status.keyValid = false →
    exec (.enc p) s = .next { s with status := { s.status with fault := true, cause := 2#2 } }) ∧
  (∀ s : State, Accepting s → s.level = .atomic → s.status.keyValid = true → HoldsKeys s (keyExpand 0x4AF5) →
    exec (.enc 0xD728) s = .next { s with sreg := some ⟨0x2, 0xE, 0x4, 0xC⟩, dout := some 0x24EC, status := { s.status with doutValid := true } })

/-- R83, R84: DEC in the atomic model, with its exception NoKey and its frame. -/
def Obligations.DecDeliversThePlaintext : Prop :=
  (∀ (c : Block) (s : State) (rk : RoundKeys), Accepting s → s.level = .atomic → s.status.keyValid = true → HoldsKeys s rk →
    let t1 := ark rk.round2 (toState c)
    let t2 := insub (sr t1)
    let t3 := imc (ark rk.round1 t2)
    let t4 := insub (sr t3)
    let t5 := ark rk.pre t4
    exec (.dec c) s =
      .next { s with sreg := some t5, dout := some (toBlock t5), status := { s.status with doutValid := true } }) ∧
  (∀ (c : Block) (s : State), Accepting s → s.status.keyValid = false →
    exec (.dec c) s = .next { s with status := { s.status with fault := true, cause := 2#2 } }) ∧
  (∀ s : State, Accepting s → s.level = .atomic → s.status.keyValid = true → HoldsKeys s (keyExpand 0x4AF5) →
    exec (.dec 0x24EC) s = .next { s with sreg := some ⟨0xD, 0x2, 0x7, 0x8⟩, dout := some 0xD728, status := { s.status with doutValid := true } } ∧
    ∃ t, exec (.dec 0xD728) s = .next t ∧ t.dout = some 0x1A7D)

/-- R82, R84, R86, R87, R94: whatever next state ENC or DEC gives, at either level, the round keys, KEY_VALID and what is not the
block's stay; FAULT and CAUSE change only by NoKey, and then nothing else does. -/
def Obligations.CipherCommandFrame : Prop :=
  ∀ (x : Block) (i : Instr) (s t : State), i = .enc x ∨ i = .dec x → exec i s = .next t →
    t.rk0 = s.rk0 ∧ t.rk1 = s.rk1 ∧ t.rk2 = s.rk2 ∧ t.status.keyValid = s.status.keyValid ∧ t.level = s.level ∧ t.host = s.host ∧
    (s.status.keyValid = true → t.status.fault = s.status.fault ∧ t.status.cause = s.status.cause) ∧
    (s.status.keyValid = false → t.sreg = s.sreg ∧ t.dout = s.dout ∧ t.stage = s.stage ∧
      t.status.doutValid = s.status.doutValid ∧ t.status.busy = s.status.busy)

/-- R86: the acceptance of ENC at stage level, and the stages E1 to E6. -/
def Obligations.EncryptionStages : Prop :=
  (∀ (p : Block) (s : State), Accepting s → s.level = .stages → s.status.keyValid = true →
    exec (.enc p) s =
      .next { s with sreg := some (toState p), stage := .e1, status := { s.status with doutValid := false, busy := true } }) ∧
  (∀ (s : State) (v : Nibbles) (rk : RoundKeys), s.sreg = some v → HoldsKeys s rk →
    (s.stage = .e1 → runStage s = .next { s with sreg := some (ark rk.pre v), stage := .e2 }) ∧
    (s.stage = .e2 → runStage s = .next { s with sreg := some (mc (sr (nsub v))), stage := .e3 }) ∧
    (s.stage = .e3 → runStage s = .next { s with sreg := some (ark rk.round1 v), stage := .e4 }) ∧
    (s.stage = .e4 → runStage s = .next { s with sreg := some (sr (nsub v)), stage := .e5 }) ∧
    (s.stage = .e5 → runStage s = .next { s with sreg := some (ark rk.round2 v), stage := .e6 }) ∧
    (s.stage = .e6 → runStage s =
      .next { s with dout := some (toBlock v), stage := .idle, status := { s.status with doutValid := true, busy := false } }))

/-- R87: the acceptance of DEC at stage level, and the stages D1 to D6. -/
def Obligations.DecryptionStages : Prop :=
  (∀ (c : Block) (s : State), Accepting s → s.level = .stages → s.status.keyValid = true →
    exec (.dec c) s =
      .next { s with sreg := some (toState c), stage := .d1, status := { s.status with doutValid := false, busy := true } }) ∧
  (∀ (s : State) (v : Nibbles) (rk : RoundKeys), s.sreg = some v → HoldsKeys s rk →
    (s.stage = .d1 → runStage s = .next { s with sreg := some (ark rk.round2 v), stage := .d2 }) ∧
    (s.stage = .d2 → runStage s = .next { s with sreg := some (insub (sr v)), stage := .d3 }) ∧
    (s.stage = .d3 → runStage s = .next { s with sreg := some (imc (ark rk.round1 v)), stage := .d4 }) ∧
    (s.stage = .d4 → runStage s = .next { s with sreg := some (insub (sr v)), stage := .d5 }) ∧
    (s.stage = .d5 → runStage s = .next { s with sreg := some (ark rk.pre v), stage := .d6 }) ∧
    (s.stage = .d6 → runStage s =
      .next { s with dout := some (toBlock v), stage := .idle, status := { s.status with doutValid := true, busy := false } }))

/-- R88, agreement: from an idle state of a run at stage level, accepting ENC or DEC and performing its six stages gives the state that
the atomic model gives in one step. The host's later moves are commands, which wait (R108 duty 1); a reset would abandon the
command. -/
def Obligations.StagesAgreeWithAtomic : Prop :=
  ∀ (s : State) (w : CommandWord) (rest : List HostMove) (x : Block) (i : Instr),
    Inv s → Accepting s → s.status.keyValid = true → s.level = .stages → s.host = .present w :: rest →
    (∀ m ∈ rest, ∃ w', m = .present w') → i = .enc x ∨ i = .dec x → decode w = .command i →
    ∃ t, exec i { s with level := .atomic, host := rest } = .next t ∧
      Host.Core.run Sys2Proof.core 7 s = .next { t with level := .stages }

/-- R88: an accepted ENC or DEC reaches Idle after exactly six stage steps, with its result valid. -/
def Obligations.SixStageStepsToIdle : Prop :=
  ∀ s : State, Inv s → s.stage = .e1 ∨ s.stage = .d1 → (∀ m ∈ s.host, ∃ w, m = .present w) →
    (∃ t, Host.Core.run Sys2Proof.core 6 s = .next t ∧ t.stage = .idle ∧ t.status.busy = false ∧ t.status.doutValid = true ∧
      t.host = s.host) ∧
    (∀ n < 6, ∃ t, Host.Core.run Sys2Proof.core n s = .next t ∧ t.stage ≠ .idle)

/-- R88: while a command is in progress and no reset comes, the round keys do not change, no new command is taken, and DOUT and
DOUT_VALID change only at E6 or D6. -/
def Obligations.CommandInProgressKeepsKeysAndDout : Prop :=
  ∀ s t : State, s.stage ≠ .idle → (∀ rest, s.host ≠ .reset :: rest) → step s = .next t →
    t.rk0 = s.rk0 ∧ t.rk1 = s.rk1 ∧ t.rk2 = s.rk2 ∧ t.status.keyValid = s.status.keyValid ∧
    t.status.fault = s.status.fault ∧ t.status.cause = s.status.cause ∧
    (∀ w rest, s.host = .present w :: rest → t.host = s.host) ∧
    (s.stage ≠ .e6 → s.stage ≠ .d6 → t.dout = s.dout ∧ t.status.doutValid = s.status.doutValid)

/-- R89: decryption undoes encryption under every key, in the datapath and by commands; encryption is a bijection, and encrypting a
decryption returns the input. -/
def Obligations.RoundTrip : Prop :=
  (∀ k p : Block, decrypt (keyExpand k) (toBlock (encrypt (keyExpand k) p)) = toState p) ∧
  (∀ k c : Block, encrypt (keyExpand k) (toBlock (decrypt (keyExpand k) c)) = toState c) ∧
  (∀ k : Block, Function.Bijective fun p => toBlock (encrypt (keyExpand k) p)) ∧
  (∀ (k p : Block) (s : State), Accepting s → s.level = .atomic →
    ∃ t u v c, exec (.key k) s = .next t ∧ exec (.enc p) t = .next u ∧ u.dout = some c ∧
      exec (.dec c) u = .next v ∧ v.dout = some p)

/-- R33, R107: two commands in a row; the ENC right after KEY uses the new keys, whatever keys the block held. -/
def Obligations.EncAfterKeyUsesTheNewKeys : Prop :=
  ∀ (k p : Block) (s : State) (rest : List HostMove), Accepting s → s.level = .atomic →
    s.host = .present (encode (.key k)) :: .present (encode (.enc p)) :: rest →
    ∃ t, Host.Core.run Sys2Proof.core 2 s = .next t ∧ HoldsKeys t (keyExpand k) ∧
      t.dout = some (toBlock (encrypt (keyExpand k) p)) ∧ t.status.doutValid = true ∧ t.host = rest

/-! ### 60_exceptions.md -/

/-- R94 with R91, R92, R93: a step that sets FAULT has accepted a reserved word (code 1), or ENC or DEC with KEY_VALID = 0 (code 2), and
has no other effect than FAULT and CAUSE. KEY never faults, and no stage does. -/
def Obligations.FaultsArePreciseWithTwoCauses : Prop :=
  ∀ s t : State, step s = .next t → s.status.fault = false → t.status.fault = true →
    ∃ w rest, s.host = .present w :: rest ∧ s.stage = .idle ∧
      t = { s with host := rest, status := { s.status with fault := true, cause := t.status.cause } } ∧
      ((decode w = .reserved ∧ t.status.cause = 1#2) ∨
       (s.status.keyValid = false ∧ t.status.cause = 2#2 ∧ ∃ x, decode w = .command (.enc x) ∨ decode w = .command (.dec x)))

/-- R95: with FAULT = 1 no command is taken, and nothing but reset changes a register. The result stays readable. -/
def Obligations.StuckUntilReset : Prop :=
  ∀ s : State, s.status.fault = true → s.stage = .idle →
    (∀ i, exec i s = .fault .stuck) ∧
    (∀ w rest, s.host = .present w :: rest → step s = .fault .stuck) ∧
    (∀ t, step s = .next t → (∀ rest, s.host ≠ .reset :: rest) → t = { s with host := t.host }) ∧
    (∀ v, s.status.busy = false → s.status.doutValid = true → s.dout = some v → readDout s = .ok v)

/-- R96: the checks on an accepted word, in order; and a stage step never faults. With FAULT = 1 the rule says "no step"; that this is
the fault outcome stuck is the model's choice, its reading of those words (log entry 4, DEDUCED). -/
def Obligations.ChecksRunInOrder : Prop :=
  (∀ (s : State) (w : CommandWord) (rest : List HostMove), s.stage = .idle → s.host = .present w :: rest →
    (s.status.fault = true → step s = .fault .stuck) ∧
    (s.status.fault = false → w.toNat < 0x10000 →
      step s = .next { s with host := rest, status := { s.status with fault := true, cause := 1#2 } }) ∧
    (∀ x, s.status.fault = false → decode w = .command (.enc x) ∨ decode w = .command (.dec x) → s.status.keyValid = false →
      step s = .next { s with host := rest, status := { s.status with fault := true, cause := 2#2 } }) ∧
    (∀ i rk, s.status.fault = false → decode w = .command i → (∃ k, i = .key k) ∨ (s.status.keyValid = true ∧ HoldsKeys s rk) →
      ∃ t, step s = .next t ∧ exec i { s with host := rest } = .next t ∧ t.status.fault = false)) ∧
  (∀ (s : State) (f : Fault), runStage s ≠ .fault f) ∧
  (∀ s t : State, runStage s = .next t → t.status.fault = s.status.fault ∧ t.status.cause = s.status.cause)

/-- R97: no return from a fault and no nesting: with FAULT = 1 no command runs, and until reset FAULT and CAUSE keep their values. -/
def Obligations.NoReturnFromFault : Prop :=
  ∀ s : State, s.status.fault = true →
    (∀ i t, exec i s ≠ .next t) ∧
    (∀ t, step s = .next t → (∀ rest, s.host ≠ .reset :: rest) → t.status.fault = true ∧ t.status.cause = s.status.cause)

/-- R102: the result of ENC or DEC depends only on the round keys and the operand: two states with the same keys give the same S and
DOUT, whatever else they hold. -/
def Obligations.ResultDependsOnKeysAndOperand : Prop :=
  ∀ (x : Block) (i : Instr) (s s' : State) (rk : RoundKeys), i = .enc x ∨ i = .dec x →
    Accepting s → Accepting s' → s.level = .atomic → s'.level = .atomic →
    s.status.keyValid = true → s'.status.keyValid = true → HoldsKeys s rk → HoldsKeys s' rk →
    ∃ t t', exec i s = .next t ∧ exec i s' = .next t' ∧ t.sreg = t'.sreg ∧ t.dout = t'.dout

/-- R102: an ENC or DEC of another caller before it leaves no trace in the state after an ENC or DEC. -/
def Obligations.EarlierCallerLeavesNoTrace : Prop :=
  ∀ (x y : Block) (i j : Instr) (s : State) (rk : RoundKeys), i = .enc x ∨ i = .dec x → j = .enc y ∨ j = .dec y →
    Accepting s → s.level = .atomic → s.status.keyValid = true → HoldsKeys s rk →
    ∃ t u, exec i s = .next t ∧ exec j t = .next u ∧ exec j s = .next u

/-! ### 70_reset_and_hazards.md -/

/-- R104: reset, whenever the host asserts it, puts every register of the block at its reset value; the host's later moves stay, and so
does the level of the run (the model's own choice, log entry 7). -/
def Obligations.ResetAtAnyTime : Prop :=
  ∀ (s : State) (rest : List HostMove), s.host = .reset :: rest →
    ∃ t, step s = .next t ∧ t.sreg = none ∧ t.rk0 = none ∧ t.rk1 = none ∧ t.rk2 = none ∧ t.dout = none ∧
      readStatus t = 0x00#8 ∧ t.status = State.reset.status ∧ t.stage = .idle ∧ t.level = s.level ∧ t.host = rest

/-- R105: an idle block does nothing until the host sends a command. -/
def Obligations.NothingHappensUntilACommand : Prop :=
  ∀ s : State, s.stage = .idle →
    (s.host = [] → step s = .next s) ∧ (∀ rest, s.host = .hold :: rest → step s = .next { s with host := rest })

/-- R110, R23: the observation of a finished run is (RK[0..2], S, DOUT, STATUS) as the registers hold them. R30, R88: while BUSY = 1
neither S nor DOUT is observed, whatever S holds; and a stage step in progress leads to the same observation from every S. -/
def Obligations.ObservationShowsSOnlyWhenIdle : Prop :=
  (∀ s : State, Inv s → Finished s →
    observe s = { rk0 := s.rk0, rk1 := s.rk1, rk2 := s.rk2, sreg := s.sreg, dout := s.dout, status := readStatus s }) ∧
  (∀ (s : State) (v : Option Nibbles), s.status.busy = true →
    (observe s).sreg = none ∧ (observe s).dout = none ∧ observe { s with sreg := v } = observe s) ∧
  (∀ (s t : State) (v : Nibbles), Inv s → s.stage ≠ .idle → step s = .next t → t.stage ≠ .idle →
    ∃ t', step { s with sreg := some v } = .next t' ∧ observe t' = observe t)

/-- R110, R95: every run, at either level and whatever words the host sends, comes to its end, within seven steps a word; and the
finished states are exactly those that no step changes: the step answers the same state, or the block is stuck. That a stuck block ends
its run is the model's reading (log entries 4 and 14, DEDUCED). -/
def Obligations.EveryRunEnds : Prop :=
  (∀ (level : Level) (words : List CommandWord), ∃ n t, n ≤ 7 * words.length ∧
    Host.Core.run Sys2Proof.core n (runStart level words) = .next t ∧ Finished t ∧ (t.status.fault = false → t.host = [])) ∧
  (∀ s : State, Inv s → (Finished s ↔ step s = .next s ∨ step s = .fault .stuck))
end

