-- ==== Sys2Proof/Config.lean ====
section
/-! DEFINITION. What an implementation fixes and the spec leaves open (70_reset_and_hazards.md R109, 92_eei_decisions.md D21): the
latencies, in clock cycles. They have no body, so nothing can be proved about their values, and no rule and no definition of the
machine reads them. The block has no other open parameter (00_scope.md R3, R5). -/

namespace Sys2Proof

/-- R109: LATENCY_KEY, an OPEN parameter. -/
opaque Config.latencyKey : Nat

/-- R109: LATENCY_ENC, an OPEN parameter. -/
opaque Config.latencyEnc : Nat

/-- R109: LATENCY_DEC, an OPEN parameter. -/
opaque Config.latencyDec : Nat

end Sys2Proof
end

