-- ==== Sys2Proof/Laws/HostInterface.lean ====
section
/-! SUPPORT. What an observation shows of S and DOUT, and what placing a numbered word does. -/

namespace Sys2Proof

/-- A number of at most 18 bits is a command word. -/
theorem commandWordOf_of_fits {nbits w : Nat} (h : w % 2 ^ nbits < 2 ^ 18) :
    commandWordOf nbits w = some (BitVec.ofNat 18 (w % 2 ^ nbits)) := if_pos h

/-- A wider number is none. -/
theorem commandWordOf_of_wide {nbits w : Nat} (h : 2 ^ 18 ≤ w % 2 ^ nbits) : commandWordOf nbits w = none :=
  if_neg (Nat.not_lt.2 h)

/-- The number of a command word stands for it, at every table width that holds it. -/
theorem commandWordOf_toNat {nbits : Nat} (h : 18 ≤ nbits) (c : CommandWord) : commandWordOf nbits c.toNat = some c := by
  have hlt : c.toNat < 2 ^ nbits := Nat.lt_of_lt_of_le c.isLt (Nat.pow_le_pow_right (by omega) h)
  have hmod : c.toNat % 2 ^ nbits = c.toNat := Nat.mod_eq_of_lt hlt
  rw [commandWordOf_of_fits (by rw [hmod]; exact c.isLt), hmod, BitVec.ofNat_toNat, BitVec.setWidth_eq]

end Sys2Proof

namespace Sys2Proof.Machine

/-- Placing the number of a command word presents that word. -/
theorem withFetchWord_toNat {nbits : Nat} (h : 18 ≤ nbits) (s : State) (c : CommandWord) :
    s.withFetchWord nbits c.toNat = placeWord s c := by
  simp [State.withFetchWord, commandWordOf_toNat h]

/-- R30, R88: while BUSY = 1 no S is observed. -/
theorem observedS_of_busy {s : State} (h : s.status.busy = true) : observedS s = none := if_pos h

/-- With BUSY = 0 the observation shows S as it is. -/
theorem observedS_of_not_busy {s : State} (h : s.status.busy = false) : observedS s = s.sreg := if_neg (by simp [h])

/-- R23, R108 duty 2: while BUSY = 1 a read of DOUT is refused. -/
theorem readDout_of_busy {s : State} (h : s.status.busy = true) : readDout s = .error .doutNotValid := by
  simp [readDout, h]

@[simp] theorem observe_rk0 (s : State) : (observe s).rk0 = s.rk0 := rfl
@[simp] theorem observe_rk1 (s : State) : (observe s).rk1 = s.rk1 := rfl
@[simp] theorem observe_rk2 (s : State) : (observe s).rk2 = s.rk2 := rfl
@[simp] theorem observe_sreg (s : State) : (observe s).sreg = observedS s := rfl
@[simp] theorem observe_dout (s : State) : (observe s).dout = (readDout s).toOption := rfl
@[simp] theorem observe_status (s : State) : (observe s).status = readStatus s := rfl

/-- R30, R88: while BUSY = 1 an observation is made of RK and STATUS alone. -/
theorem observe_of_busy {s : State} (h : s.status.busy = true) :
    observe s = { rk0 := s.rk0, rk1 := s.rk1, rk2 := s.rk2, sreg := none, dout := none, status := readStatus s } := by
  simp [observe, observedS_of_busy h, readDout_of_busy h, Except.toOption]

end Sys2Proof.Machine
end

