-- ==== Sys2Proof/Laws/State.lean ====
section
/-! SUPPORT. One lemma per field per update of the state and of STATUS, so that no later proof unfolds a record update. -/

namespace Sys2Proof.Machine

/-! R16: the writers of STATUS. -/

@[simp] theorem statusKeyLoaded_keyValid (t : Status) : (statusKeyLoaded t).keyValid = true := rfl
@[simp] theorem statusKeyLoaded_doutValid (t : Status) : (statusKeyLoaded t).doutValid = t.doutValid := rfl
@[simp] theorem statusKeyLoaded_busy (t : Status) : (statusKeyLoaded t).busy = t.busy := rfl
@[simp] theorem statusKeyLoaded_fault (t : Status) : (statusKeyLoaded t).fault = t.fault := rfl
@[simp] theorem statusKeyLoaded_cause (t : Status) : (statusKeyLoaded t).cause = t.cause := rfl

@[simp] theorem statusDelivered_keyValid (t : Status) : (statusDelivered t).keyValid = t.keyValid := rfl
@[simp] theorem statusDelivered_doutValid (t : Status) : (statusDelivered t).doutValid = true := rfl
@[simp] theorem statusDelivered_busy (t : Status) : (statusDelivered t).busy = t.busy := rfl
@[simp] theorem statusDelivered_fault (t : Status) : (statusDelivered t).fault = t.fault := rfl
@[simp] theorem statusDelivered_cause (t : Status) : (statusDelivered t).cause = t.cause := rfl

@[simp] theorem statusAccepted_keyValid (t : Status) : (statusAccepted t).keyValid = t.keyValid := rfl
@[simp] theorem statusAccepted_doutValid (t : Status) : (statusAccepted t).doutValid = false := rfl
@[simp] theorem statusAccepted_busy (t : Status) : (statusAccepted t).busy = true := rfl
@[simp] theorem statusAccepted_fault (t : Status) : (statusAccepted t).fault = t.fault := rfl
@[simp] theorem statusAccepted_cause (t : Status) : (statusAccepted t).cause = t.cause := rfl

@[simp] theorem statusFinished_keyValid (t : Status) : (statusFinished t).keyValid = t.keyValid := rfl
@[simp] theorem statusFinished_doutValid (t : Status) : (statusFinished t).doutValid = true := rfl
@[simp] theorem statusFinished_busy (t : Status) : (statusFinished t).busy = false := rfl
@[simp] theorem statusFinished_fault (t : Status) : (statusFinished t).fault = t.fault := rfl
@[simp] theorem statusFinished_cause (t : Status) : (statusFinished t).cause = t.cause := rfl

@[simp] theorem statusFaulted_keyValid (c : Cause) (t : Status) : (statusFaulted c t).keyValid = t.keyValid := rfl
@[simp] theorem statusFaulted_doutValid (c : Cause) (t : Status) : (statusFaulted c t).doutValid = t.doutValid := rfl
@[simp] theorem statusFaulted_busy (c : Cause) (t : Status) : (statusFaulted c t).busy = t.busy := rfl
@[simp] theorem statusFaulted_fault (c : Cause) (t : Status) : (statusFaulted c t).fault = true := rfl
@[simp] theorem statusFaulted_cause (c : Cause) (t : Status) : (statusFaulted c t).cause = causeCode c := rfl

/-! R60: what KEY writes and what it leaves. -/

@[simp] theorem loadKeys_sreg (rk : RoundKeys) (s : State) : (loadKeys rk s).sreg = s.sreg := rfl
@[simp] theorem loadKeys_rk0 (rk : RoundKeys) (s : State) : (loadKeys rk s).rk0 = some rk.pre := rfl
@[simp] theorem loadKeys_rk1 (rk : RoundKeys) (s : State) : (loadKeys rk s).rk1 = some rk.round1 := rfl
@[simp] theorem loadKeys_rk2 (rk : RoundKeys) (s : State) : (loadKeys rk s).rk2 = some rk.round2 := rfl
@[simp] theorem loadKeys_dout (rk : RoundKeys) (s : State) : (loadKeys rk s).dout = s.dout := rfl
@[simp] theorem loadKeys_status (rk : RoundKeys) (s : State) : (loadKeys rk s).status = statusKeyLoaded s.status := rfl
@[simp] theorem loadKeys_stage (rk : RoundKeys) (s : State) : (loadKeys rk s).stage = s.stage := rfl
@[simp] theorem loadKeys_level (rk : RoundKeys) (s : State) : (loadKeys rk s).level = s.level := rfl
@[simp] theorem loadKeys_host (rk : RoundKeys) (s : State) : (loadKeys rk s).host = s.host := rfl

/-! R82, R84: what ENC and DEC write in the atomic model. -/

@[simp] theorem deliver_sreg (v : Nibbles) (s : State) : (deliver v s).sreg = some v := rfl
@[simp] theorem deliver_rk0 (v : Nibbles) (s : State) : (deliver v s).rk0 = s.rk0 := rfl
@[simp] theorem deliver_rk1 (v : Nibbles) (s : State) : (deliver v s).rk1 = s.rk1 := rfl
@[simp] theorem deliver_rk2 (v : Nibbles) (s : State) : (deliver v s).rk2 = s.rk2 := rfl
@[simp] theorem deliver_dout (v : Nibbles) (s : State) : (deliver v s).dout = some (toBlock v) := rfl
@[simp] theorem deliver_status (v : Nibbles) (s : State) : (deliver v s).status = statusDelivered s.status := rfl
@[simp] theorem deliver_stage (v : Nibbles) (s : State) : (deliver v s).stage = s.stage := rfl
@[simp] theorem deliver_level (v : Nibbles) (s : State) : (deliver v s).level = s.level := rfl
@[simp] theorem deliver_host (v : Nibbles) (s : State) : (deliver v s).host = s.host := rfl

/-! R86, R87: acceptance at stage level. -/

@[simp] theorem beginStages_sreg (v : Nibbles) (g : Stage) (s : State) : (beginStages v g s).sreg = some v := rfl
@[simp] theorem beginStages_rk0 (v : Nibbles) (g : Stage) (s : State) : (beginStages v g s).rk0 = s.rk0 := rfl
@[simp] theorem beginStages_rk1 (v : Nibbles) (g : Stage) (s : State) : (beginStages v g s).rk1 = s.rk1 := rfl
@[simp] theorem beginStages_rk2 (v : Nibbles) (g : Stage) (s : State) : (beginStages v g s).rk2 = s.rk2 := rfl
@[simp] theorem beginStages_dout (v : Nibbles) (g : Stage) (s : State) : (beginStages v g s).dout = s.dout := rfl
@[simp] theorem beginStages_status (v : Nibbles) (g : Stage) (s : State) : (beginStages v g s).status = statusAccepted s.status := rfl
@[simp] theorem beginStages_stage (v : Nibbles) (g : Stage) (s : State) : (beginStages v g s).stage = g := rfl
@[simp] theorem beginStages_level (v : Nibbles) (g : Stage) (s : State) : (beginStages v g s).level = s.level := rfl
@[simp] theorem beginStages_host (v : Nibbles) (g : Stage) (s : State) : (beginStages v g s).host = s.host := rfl

/-! R86, R87: a stage that writes S. -/

@[simp] theorem toStage_sreg (v : Nibbles) (g : Stage) (s : State) : (toStage v g s).sreg = some v := rfl
@[simp] theorem toStage_rk0 (v : Nibbles) (g : Stage) (s : State) : (toStage v g s).rk0 = s.rk0 := rfl
@[simp] theorem toStage_rk1 (v : Nibbles) (g : Stage) (s : State) : (toStage v g s).rk1 = s.rk1 := rfl
@[simp] theorem toStage_rk2 (v : Nibbles) (g : Stage) (s : State) : (toStage v g s).rk2 = s.rk2 := rfl
@[simp] theorem toStage_dout (v : Nibbles) (g : Stage) (s : State) : (toStage v g s).dout = s.dout := rfl
@[simp] theorem toStage_status (v : Nibbles) (g : Stage) (s : State) : (toStage v g s).status = s.status := rfl
@[simp] theorem toStage_stage (v : Nibbles) (g : Stage) (s : State) : (toStage v g s).stage = g := rfl
@[simp] theorem toStage_level (v : Nibbles) (g : Stage) (s : State) : (toStage v g s).level = s.level := rfl
@[simp] theorem toStage_host (v : Nibbles) (g : Stage) (s : State) : (toStage v g s).host = s.host := rfl

/-! R86, R87: stage E6 or D6. -/

@[simp] theorem finishStages_sreg (v : Nibbles) (s : State) : (finishStages v s).sreg = s.sreg := rfl
@[simp] theorem finishStages_rk0 (v : Nibbles) (s : State) : (finishStages v s).rk0 = s.rk0 := rfl
@[simp] theorem finishStages_rk1 (v : Nibbles) (s : State) : (finishStages v s).rk1 = s.rk1 := rfl
@[simp] theorem finishStages_rk2 (v : Nibbles) (s : State) : (finishStages v s).rk2 = s.rk2 := rfl
@[simp] theorem finishStages_dout (v : Nibbles) (s : State) : (finishStages v s).dout = some (toBlock v) := rfl
@[simp] theorem finishStages_status (v : Nibbles) (s : State) : (finishStages v s).status = statusFinished s.status := rfl
@[simp] theorem finishStages_stage (v : Nibbles) (s : State) : (finishStages v s).stage = .idle := rfl
@[simp] theorem finishStages_level (v : Nibbles) (s : State) : (finishStages v s).level = s.level := rfl
@[simp] theorem finishStages_host (v : Nibbles) (s : State) : (finishStages v s).host = s.host := rfl

/-! R94: fault entry. -/

@[simp] theorem raiseFault_sreg (c : Cause) (s : State) : (raiseFault c s).sreg = s.sreg := rfl
@[simp] theorem raiseFault_rk0 (c : Cause) (s : State) : (raiseFault c s).rk0 = s.rk0 := rfl
@[simp] theorem raiseFault_rk1 (c : Cause) (s : State) : (raiseFault c s).rk1 = s.rk1 := rfl
@[simp] theorem raiseFault_rk2 (c : Cause) (s : State) : (raiseFault c s).rk2 = s.rk2 := rfl
@[simp] theorem raiseFault_dout (c : Cause) (s : State) : (raiseFault c s).dout = s.dout := rfl
@[simp] theorem raiseFault_status (c : Cause) (s : State) : (raiseFault c s).status = statusFaulted c s.status := rfl
@[simp] theorem raiseFault_stage (c : Cause) (s : State) : (raiseFault c s).stage = s.stage := rfl
@[simp] theorem raiseFault_level (c : Cause) (s : State) : (raiseFault c s).level = s.level := rfl
@[simp] theorem raiseFault_host (c : Cause) (s : State) : (raiseFault c s).host = s.host := rfl

/-! R104: reset. -/

@[simp] theorem applyReset_sreg (s : State) : (applyReset s).sreg = none := rfl
@[simp] theorem applyReset_rk0 (s : State) : (applyReset s).rk0 = none := rfl
@[simp] theorem applyReset_rk1 (s : State) : (applyReset s).rk1 = none := rfl
@[simp] theorem applyReset_rk2 (s : State) : (applyReset s).rk2 = none := rfl
@[simp] theorem applyReset_dout (s : State) : (applyReset s).dout = none := rfl
@[simp] theorem applyReset_status (s : State) : (applyReset s).status = State.reset.status := rfl
@[simp] theorem applyReset_stage (s : State) : (applyReset s).stage = .idle := rfl
@[simp] theorem applyReset_level (s : State) : (applyReset s).level = s.level := rfl
@[simp] theorem applyReset_host (s : State) : (applyReset s).host = s.host := rfl

/-! A word placed at the command port. -/

@[simp] theorem placeWord_sreg (s : State) (w : CommandWord) : (placeWord s w).sreg = s.sreg := rfl
@[simp] theorem placeWord_rk0 (s : State) (w : CommandWord) : (placeWord s w).rk0 = s.rk0 := rfl
@[simp] theorem placeWord_rk1 (s : State) (w : CommandWord) : (placeWord s w).rk1 = s.rk1 := rfl
@[simp] theorem placeWord_rk2 (s : State) (w : CommandWord) : (placeWord s w).rk2 = s.rk2 := rfl
@[simp] theorem placeWord_dout (s : State) (w : CommandWord) : (placeWord s w).dout = s.dout := rfl
@[simp] theorem placeWord_status (s : State) (w : CommandWord) : (placeWord s w).status = s.status := rfl
@[simp] theorem placeWord_stage (s : State) (w : CommandWord) : (placeWord s w).stage = s.stage := rfl
@[simp] theorem placeWord_level (s : State) (w : CommandWord) : (placeWord s w).level = s.level := rfl
@[simp] theorem placeWord_host (s : State) (w : CommandWord) : (placeWord s w).host = .present w :: s.host := rfl

end Sys2Proof.Machine
end

