-- ==== Sys2Proof/Laws/Ops.lean ====
section
/-! SUPPORT. One inversion lemma per shared operation: everything it can do when it answers a next state. -/

namespace Sys2Proof.Machine

/-- R95, R96: under the guard a next state comes only from the guarded command, with FAULT = 0 and the block idle. -/
theorem whenAccepting_next {s t : State} {k : Result} (h : whenAccepting s k = .next t) :
    s.status.fault = false ∧ s.stage = .idle ∧ k = .next t := by
  unfold whenAccepting at h
  split at h
  · cases h
  · split at h
    · cases h
    · exact ⟨by simpa using ‹¬s.status.fault = true›, by simpa using ‹¬s.stage ≠ .idle›, h⟩

/-- The guard lets the command through when FAULT = 0 and the block is idle. -/
theorem whenAccepting_of_accepting {s : State} {k : Result} (hf : s.status.fault = false) (hg : s.stage = .idle) :
    whenAccepting s k = k := by
  simp [whenAccepting, hf, hg]

/-- R95: with FAULT = 1 nothing is taken. -/
theorem whenAccepting_of_fault {s : State} {k : Result} (hf : s.status.fault = true) :
    whenAccepting s k = .fault .stuck := by
  simp [whenAccepting, hf]

/-- R93: a keyed command answers a next state by its own effect or by NoKey. -/
theorem whenKeyed_next {s t : State} {k : Result} (h : whenKeyed s k = .next t) :
    (s.status.keyValid = true ∧ k = .next t) ∨ (s.status.keyValid = false ∧ t = raiseFault .noKey s) := by
  unfold whenKeyed at h
  split at h
  · exact .inl ⟨‹_›, h⟩
  · exact .inr ⟨by simpa using ‹¬s.status.keyValid = true›, by cases h; rfl⟩

/-- R23: a read answers a next state only from a register that holds a value. -/
theorem withValue_next {r : Option Nibbles} {k : Nibbles → Result} {t : State} (h : withValue r k = .next t) :
    ∃ v, r = some v ∧ k v = .next t := by
  cases r with
  | none => cases h
  | some v => exact ⟨v, rfl, h⟩

/-- R14: the three round keys are read together. -/
theorem withRoundKeys_next {s t : State} {k : RoundKeys → Result} (h : withRoundKeys s k = .next t) :
    ∃ rk : RoundKeys, s.rk0 = some rk.pre ∧ s.rk1 = some rk.round1 ∧ s.rk2 = some rk.round2 ∧ k rk = .next t := by
  obtain ⟨a, ha, h⟩ := withValue_next h
  obtain ⟨b, hb, h⟩ := withValue_next h
  obtain ⟨c, hc, h⟩ := withValue_next h
  exact ⟨⟨a, b, c⟩, ha, hb, hc, h⟩

/-- The read of three registers that hold values. -/
theorem withRoundKeys_of_values {s : State} {k : RoundKeys → Result} {rk : RoundKeys} (h0 : s.rk0 = some rk.pre)
    (h1 : s.rk1 = some rk.round1) (h2 : s.rk2 = some rk.round2) : withRoundKeys s k = k rk := by
  simp [withRoundKeys, withValue, h0, h1, h2]

end Sys2Proof.Machine
end

