-- ==== Sys2Proof/Laws/PerInstr.lean ====
section
/-! SUPPORT. Statements made of every instruction as a term, one lemma per constructor. Family EncodedFields (R37, R38, R39): the
word of an instruction carries its OP in bits 17:16 and its operand in bits 15:0, and so is a well-formed word. -/

namespace Sys2Proof.Laws.EncodedFields

/-- R37, R38: both fields of the encoded word, and that its OP is not the reserved one. -/
def Statement (i : Instr) : Prop :=
  opField (encode i) = opOf (mnemonicOf i) ∧ immField (encode i) = operandOf i ∧ CommandWord.wellFormed (encode i) = true

/-- Both fields of a concatenation, for any OP. -/
theorem fields_of_concat (o : BitVec 2) (v : Block) : opField (o ++ v) = o ∧ immField (o ++ v) = v := by
  constructor
  · refine BitVec.eq_of_getLsbD_eq fun j hj => ?_
    simpa [opField, hj] using BitVec.getLsbD_append (x := o) (y := v) (i := 16 + j)
  · refine BitVec.eq_of_getLsbD_eq fun j hj => ?_
    simpa [immField, hj] using BitVec.getLsbD_append (x := o) (y := v) (i := j)

/-- The three facts, once the OP is not 0b00. -/
theorem of_op_ne_zero {i : Instr} (h : opOf (mnemonicOf i) ≠ 0b00#2) : Statement i := by
  obtain ⟨ho, hv⟩ := fields_of_concat (opOf (mnemonicOf i)) (operandOf i)
  refine ⟨ho, hv, ?_⟩
  have hw : (encode i).extractLsb' 16 2 = opOf (mnemonicOf i) := ho
  simpa [CommandWord.wellFormed, hw] using h

theorem key (k : Block) : Statement (.key k) :=
  of_op_ne_zero (by simp [mnemonicOf, opOf])

theorem enc (p : Block) : Statement (.enc p) :=
  of_op_ne_zero (by simp [mnemonicOf, opOf])

theorem dec (c : Block) : Statement (.dec c) :=
  of_op_ne_zero (by simp [mnemonicOf, opOf])

end Sys2Proof.Laws.EncodedFields
end

