-- ==== Sys2Proof/Laws/Step.lean ====
section
/-! SUPPORT. What a command, a stage and a step can do when they answer a next state, said once. -/

namespace Sys2Proof.Machine

/-- R82, R84, R86, R87: what a cipher command of datapath `f`, operand `p` and first stage `g` does when it is taken. -/
def CipherEffect (f : RoundKeys → Block → Nibbles) (g : Stage) (p : Block) (s t : State) : Prop :=
  (s.status.keyValid = false ∧ t = raiseFault .noKey s) ∨
  (s.status.keyValid = true ∧ s.level = .stages ∧ t = beginStages (toState p) g s) ∨
  (s.status.keyValid = true ∧ s.level = .atomic ∧ ∃ rk : RoundKeys,
    s.rk0 = some rk.pre ∧ s.rk1 = some rk.round1 ∧ s.rk2 = some rk.round2 ∧ t = deliver (f rk p) s)

/-- R60: KEY. -/
theorem execKey_next {k : Block} {s t : State} (h : execKey k s = .next t) :
    s.status.fault = false ∧ s.stage = .idle ∧ t = loadKeys (keyExpand k) s := by
  obtain ⟨hf, hg, h⟩ := whenAccepting_next h
  exact ⟨hf, hg, by cases h; rfl⟩

/-- R82, R86: ENC. -/
theorem execEnc_next {p : Block} {s t : State} (h : execEnc p s = .next t) :
    s.status.fault = false ∧ s.stage = .idle ∧ CipherEffect encrypt .e1 p s t := by
  obtain ⟨hf, hg, h⟩ := whenAccepting_next h
  refine ⟨hf, hg, ?_⟩
  rcases whenKeyed_next h with ⟨hk, h⟩ | h
  · cases hl : s.level with
    | atomic =>
      rw [hl] at h
      obtain ⟨rk, h0, h1, h2, h⟩ := withRoundKeys_next h
      exact .inr (.inr ⟨hk, hl, rk, h0, h1, h2, by cases h; rfl⟩)
    | stages =>
      rw [hl] at h
      exact .inr (.inl ⟨hk, hl, by cases h; rfl⟩)
  · exact .inl h

/-- R84, R87: DEC. -/
theorem execDec_next {c : Block} {s t : State} (h : execDec c s = .next t) :
    s.status.fault = false ∧ s.stage = .idle ∧ CipherEffect decrypt .d1 c s t := by
  obtain ⟨hf, hg, h⟩ := whenAccepting_next h
  refine ⟨hf, hg, ?_⟩
  rcases whenKeyed_next h with ⟨hk, h⟩ | h
  · cases hl : s.level with
    | atomic =>
      rw [hl] at h
      obtain ⟨rk, h0, h1, h2, h⟩ := withRoundKeys_next h
      exact .inr (.inr ⟨hk, hl, rk, h0, h1, h2, by cases h; rfl⟩)
    | stages =>
      rw [hl] at h
      exact .inr (.inl ⟨hk, hl, by cases h; rfl⟩)
  · exact .inl h

/-- Every next state of a command, by command. -/
theorem exec_next {i : Instr} {s t : State} (h : exec i s = .next t) :
    s.status.fault = false ∧ s.stage = .idle ∧
      ((∃ k, i = .key k ∧ t = loadKeys (keyExpand k) s) ∨
       (∃ p, i = .enc p ∧ CipherEffect encrypt .e1 p s t) ∨
       (∃ c, i = .dec c ∧ CipherEffect decrypt .d1 c s t)) := by
  cases i with
  | key k =>
    obtain ⟨hf, hg, h⟩ := execKey_next h
    exact ⟨hf, hg, .inl ⟨k, rfl, h⟩⟩
  | enc p =>
    obtain ⟨hf, hg, h⟩ := execEnc_next h
    exact ⟨hf, hg, .inr (.inl ⟨p, rfl, h⟩)⟩
  | dec c =>
    obtain ⟨hf, hg, h⟩ := execDec_next h
    exact ⟨hf, hg, .inr (.inr ⟨c, rfl, h⟩)⟩

/-- R80: every next state of an accepted word. -/
theorem acceptWord_next {w : CommandWord} {s t : State} (h : acceptWord w s = .next t) :
    s.status.fault = false ∧ s.stage = .idle ∧
      ((decode w = .reserved ∧ t = raiseFault .illegalCommand s) ∨
       (∃ i, decode w = .command i ∧ exec i s = .next t)) := by
  obtain ⟨hf, hg, h⟩ := whenAccepting_next h
  refine ⟨hf, hg, ?_⟩
  cases hd : decode w with
  | reserved =>
    rw [hd] at h
    exact .inl ⟨rfl, by cases h; rfl⟩
  | command i =>
    rw [hd] at h
    exact .inr ⟨i, rfl, h⟩

/-- R86, R87: a stage step changes nothing (idle), writes S and moves to a later stage, or finishes with S in DOUT. -/
theorem runStage_next {s t : State} (h : runStage s = .next t) :
    (s.stage = .idle ∧ t = s) ∨
    (s.stage ≠ .idle ∧ ∃ v, s.sreg = some v ∧
      ((∃ v' g, g ≠ .idle ∧ t = toStage v' g s) ∨ ((s.stage = .e6 ∨ s.stage = .d6) ∧ t = finishStages v s))) := by
  unfold runStage at h
  split at h
  case h_1 hg => exact .inl ⟨hg, by cases h; rfl⟩
  case h_7 hg =>
    obtain ⟨v, hv, h⟩ := withValue_next h
    exact .inr ⟨by simp [hg], v, hv, .inr ⟨.inl hg, by cases h; rfl⟩⟩
  case h_13 hg =>
    obtain ⟨v, hv, h⟩ := withValue_next h
    exact .inr ⟨by simp [hg], v, hv, .inr ⟨.inr hg, by cases h; rfl⟩⟩
  case h_2 hg | h_4 hg | h_6 hg | h_8 hg | h_10 hg | h_12 hg =>
    obtain ⟨k, -, h⟩ := withValue_next h
    obtain ⟨v, hv, h⟩ := withValue_next h
    cases h
    refine .inr ⟨by simp [hg], v, hv, .inl ⟨_, _, ?_, rfl⟩⟩
    nofun
  case h_3 hg | h_5 hg | h_9 hg | h_11 hg =>
    obtain ⟨v, hv, h⟩ := withValue_next h
    cases h
    refine .inr ⟨by simp [hg], v, hv, .inl ⟨_, _, ?_, rfl⟩⟩
    nofun

/-- The host's moves as they stand for a stage step: a `hold` is used up, an empty list and a word that has to wait are left. -/
def StageTurn (s : State) (rest : List HostMove) : Prop :=
  (s.host = [] ∧ rest = []) ∨ s.host = .hold :: rest ∨ (s.stage ≠ .idle ∧ rest = s.host ∧ ∃ w r, s.host = .present w :: r)

/-- Every next state of a step: reset, an accepted word, or a stage step (which changes nothing when the block is idle). -/
theorem step_next {s t : State} (h : step s = .next t) :
    (∃ rest, s.host = .reset :: rest ∧ t = applyReset { s with host := rest }) ∨
    (∃ w rest, s.host = .present w :: rest ∧ s.stage = .idle ∧ acceptWord w { s with host := rest } = .next t) ∨
    (∃ rest, StageTurn s rest ∧ runStage { s with host := rest } = .next t) := by
  unfold step hostTurn at h
  split at h
  case h_1 hh => exact .inr (.inr ⟨[], .inl ⟨hh, rfl⟩, by rw [← hh]; exact h⟩)
  case h_2 rest hh => exact .inr (.inr ⟨rest, .inr (.inl hh), h⟩)
  case h_3 rest hh => exact .inl ⟨rest, hh, by cases h; rfl⟩
  case h_4 w rest hh =>
    split at h
    · exact .inr (.inl ⟨w, rest, hh, ‹_›, h⟩)
    · exact .inr (.inr ⟨s.host, .inr (.inr ⟨‹_›, rfl, w, rest, hh⟩), h⟩)

end Sys2Proof.Machine
end

