-- ==== Sys2Proof/Tests/Slice0.lean ====
section
/-! SUPPORT. The model's own tests. Expected values are those of spec/95_test_vectors.md and of the worked examples of the rules. The
theorems named test_meets_<Statement> show a concrete input that meets the hypotheses of that statement. -/

namespace Sys2Proof.Tests

open Sys2Proof Sys2Proof.Machine Sys2Proof.Safety

/-! ### Small states -/

/-- Reset with a key loaded, at a level, with moves of the host. -/
def keyed (level : Level) (host : List HostMove) : State :=
  { loadKeys (keyExpand 0x4AF5) State.reset with level := level, host := host }

/-- The state after NoKey from reset. -/
def stuckAt (host : List HostMove) : State :=
  { raiseFault .noKey State.reset with host := host }

/-- ENC 0xD728 or DEC 0xD728 just accepted at stage level. -/
def inProgress (first : Stage) (host : List HostMove) : State :=
  { beginStages (toState 0xD728) first (keyed .stages []) with host := host }

/-- The atomic model with a key and a result. -/
def delivered (host : List HostMove) : State :=
  { deliver ⟨0x2, 0xE, 0x4, 0xC⟩ (keyed .atomic []) with host := host }

theorem keyed_inv (level : Level) (host : List HostMove) : Inv (keyed level host) := by
  constructor <;> simp [keyed, State.reset, statusKeyLoaded]

theorem stuckAt_inv (host : List HostMove) : Inv (stuckAt host) := by
  constructor <;> simp [stuckAt, State.reset, causeCode]

theorem inProgress_inv {first : Stage} (h : first ≠ .idle) (host : List HostMove) : Inv (inProgress first host) := by
  constructor <;> simp [inProgress, keyed, State.reset, h]

theorem delivered_inv (host : List HostMove) : Inv (delivered host) := by
  constructor <;> simp [delivered, keyed, State.reset]

/-! ### Well-formedness: each check refuses an ill-formed term -/

theorem test_wellFormed_refuses_reserved_word : CommandWord.wellFormed 0x0FFFF#18 = false := by decide
theorem test_wellFormed_takes_command_word : CommandWord.wellFormed 0x10000#18 = true := by decide
theorem test_wellFormed_refuses_wide_request : Request.wellFormed ⟨.ENC, 0x10000⟩ = false := by decide
theorem test_wellFormed_takes_widest_request : Request.wellFormed ⟨.KEY, 0xFFFF⟩ = true := by decide

/-! ### Decoding: words written out from the encodings of 30_encoding.md R39, R45 -/

theorem test_decode_key : decode 0b01_0100_1010_1111_0101#18 = .command (.key 0b0100101011110101#16) := by decide
theorem test_decode_enc : decode 0b10_1101_0111_0010_1000#18 = .command (.enc 0b1101011100101000#16) := by decide
theorem test_decode_dec : decode 0b11_0010_0100_1110_1100#18 = .command (.dec 0b0010010011101100#16) := by decide
theorem test_decode_reserved : decode 0b00_1111_1111_1111_1111#18 = .reserved := by decide
theorem test_encode_dec : encode (.dec 0x24EC#16) = 0x324EC#18 := by decide
theorem test_table_word : decodeTableWord 18 0x2D728 = some (.enc 0xD728#16) ∧ decodeTableWord 24 0x40000 = none := by decide

/-! ### The datapath (L2.1 to L2.6) -/

theorem test_toState_crossed : toState 0x0F00#16 = ⟨0, 0, 0xF, 0⟩ ∧ toState 0x00F0#16 = ⟨0, 0xF, 0, 0⟩ := by decide
theorem test_toBlock_crossed : toBlock ⟨0xA, 0xC, 0xB, 0xD⟩ = 0xABCD#16 := by decide
theorem test_subWord_rotWord : subWord (rotWord 0x3B) = 0x3B ∧ subWord (rotWord 0x12) = 0xA4 := by decide
theorem test_keyExpand : keyExpand 0xA73B = ⟨⟨0xA, 0x3, 0x7, 0xB⟩, ⟨0x1, 0x2, 0xC, 0x7⟩, ⟨0x7, 0x5, 0x6, 0x1⟩⟩ := by decide
theorem test_gfMul_reduces : gfMul 2 8 = 3 ∧ gfMul 0xF 0xF = 0xA ∧ gfMul 9 0xF = 0xE ∧ gfMul 9 9 = 0xD := by decide
theorem test_mc_imc : mc ⟨0xF, 0xE, 0xD, 0xC⟩ = ⟨0xE, 0xB, 0x4, 0x1⟩ ∧ imc ⟨0x1, 0x2, 0x3, 0x4⟩ = ⟨0xF, 0x9, 0xA, 0x6⟩ := by decide
theorem test_encrypt_shifts_rows : toBlock (encrypt (keyExpand 0x1234) 0x5678) = 0x58DC#16 := by decide
theorem test_encrypt_ones : toBlock (encrypt (keyExpand 0xFFFF) 0xFFFF) = 0x5343#16 := by decide
theorem test_decrypt_other_block : toBlock (decrypt (keyExpand 0x0000) 0x0000) = 0xEF35#16 := by decide

/-! ### One step (L2.7) -/

theorem test_step_key : step { State.reset with host := [.present 0x14AF5] } = .next (keyed .atomic []) ∧
    readStatus (keyed .atomic []) = 0x01#8 := ⟨rfl, by decide⟩
theorem test_step_enc : step (keyed .atomic [.present 0x2D728]) = .next (delivered []) ∧
    readStatus (delivered []) = 0x03#8 ∧ (delivered []).dout = some 0x24EC := ⟨rfl, by decide, by decide⟩
theorem test_step_dec : ∃ t, step (delivered [.present 0x324EC]) = .next t ∧ t.dout = some 0xD728 := ⟨_, rfl, by decide⟩
theorem test_step_noKey : step { State.reset with host := [.present 0x2D728] } = .next (stuckAt []) ∧
    readStatus (stuckAt []) = 0x28#8 := ⟨rfl, by decide⟩
theorem test_step_reserved : ∃ t, step (keyed .atomic [.present 0x0FFFF]) = .next t ∧ readStatus t = 0x19#8 := ⟨_, rfl, by decide⟩
theorem test_step_stuck : step (stuckAt [.present 0x00000]) = .fault .stuck := rfl
theorem test_rekey_keeps_dout : ∃ t, step (delivered [.present 0x1FFFF]) = .next t ∧ readStatus t = 0x03#8 ∧ t.dout = some 0x24EC :=
  ⟨_, rfl, by decide, by decide⟩
theorem test_stage_accept : step (keyed .stages [.present 0x2D728]) = .next (inProgress .e1 []) ∧
    readStatus (inProgress .e1 []) = 0x05#8 := ⟨rfl, by decide⟩
theorem test_stage_e1 : ∃ t, step (inProgress .e1 [.hold]) = .next t ∧ t.sreg = some ⟨0x9, 0xD, 0xD, 0xD⟩ ∧ t.stage = .e2 :=
  ⟨_, rfl, by decide, by decide⟩
theorem test_reset_abandons : ∃ t, step (inProgress .d1 [.reset]) = .next t ∧ t.dout = none ∧ t.stage = .idle := ⟨_, rfl, by decide, by decide⟩
theorem test_dout_refused : (readDout State.reset).toOption = none ∧ (readDout (delivered [])).toOption = some 0x24EC := by decide

/-! ### Ends of runs (L3: P3 and P4) and what is observed -/

theorem test_end_P3 : ∃ t, Host.Core.run Sys2Proof.core 1 (runStart .atomic [0x2D728, 0x14AF5, 0x2D728]) = .next t ∧
    Finished t ∧ ¬Succeeded t ∧ step t = .fault .stuck ∧ observe t = ⟨none, none, none, none, none, 0x28⟩ :=
  ⟨_, rfl, .inr ⟨rfl, rfl, _, _, rfl⟩, fun h => absurd h.2 (by decide), rfl, by decide⟩
theorem test_end_P4 : ∃ t, Host.Core.run Sys2Proof.core 3 (runStart .atomic [0x14AF5, 0x20000, 0x0FFFF, 0x352B1]) = .next t ∧
    Finished t ∧ ¬Succeeded t ∧ step t = .fault .stuck ∧ observe t = ⟨some ⟨0x4, 0xF, 0xA, 0x5⟩, some ⟨0xD, 0x2, 0xD, 0x8⟩,
      some ⟨0x8, 0xA, 0x7, 0xF⟩, some ⟨0x5, 0xB, 0x2, 0x1⟩, some 0x52B1, 0x1B⟩ :=
  ⟨_, rfl, .inr ⟨rfl, rfl, _, _, rfl⟩, fun h => absurd h.2 (by decide), rfl, by decide⟩
theorem test_busy_hides_S : (observe (inProgress .e3 [])).sreg = none ∧ (observe (inProgress .e3 [])).status = 0x05#8 ∧
    (observe (delivered [])).sreg = some ⟨0x2, 0xE, 0x4, 0xC⟩ := by decide
theorem test_wide_number_places_nothing : State.reset.withFetchWord 24 0x54AF5 = State.reset ∧ decodeTableWord 24 0x54AF5 = none ∧
    (State.reset.withFetchWord 24 0x14AF5).host = [.present 0x14AF5] := by decide

/-! ### The host's tools (R42 to R45, R99) -/

theorem test_assemble_binary : assembleLine "KEY 0b0100_1010_1111_0101 ; the known key".toList = .ok (some 0x14AF5#18) := by decide
theorem test_assemble_comment_only : assembleLine "  ; nothing".toList = .ok none := by decide
theorem test_assemble_decimal : assembleLine "enc 65535".toList = .ok (some 0x2FFFF#18) := by decide
theorem test_assemble_too_wide : assembleLine "ENC 0x10000".toList = .error (.tooWide .outOfRange) ∧
    assembleLine "KEY 65536".toList = .error (.tooWide .invalidKeyWidth) := by decide
theorem test_assemble_bad : assembleLine "KEY 0x".toList = .error .badLiteral ∧ assembleLine "NOP 1".toList = .error .unknownMnemonic := by decide
theorem test_assemble_program : assemble ["KEY 0x4AF5".toList, [], "DEC 0x24EC".toList] = .ok [0x14AF5#18, 0x324EC#18] := by decide

/-! ### Inputs that meet the hypotheses of the statements -/

theorem test_meets_RoundKeysChangeOnlyByKeyOrReset : ∃ s t, step s = .next t ∧ t.rk0 ≠ s.rk0 :=
  ⟨{ State.reset with host := [.present 0x14AF5] }, _, rfl, by decide⟩

theorem test_meets_DoutChangesOnlyByCompletionOrReset :
    (∃ s t, step s = .next t ∧ t.dout ≠ s.dout) ∧ (∃ s t, s.stage = .e6 ∧ step s = .next t ∧ t.dout ≠ s.dout) :=
  ⟨⟨keyed .atomic [.present 0x2D728], _, rfl, by decide⟩, inProgress .e6 [], _, rfl, rfl, by decide⟩

theorem test_meets_OnlyResetClearsStatus :
    (∃ s t, step s = .next t ∧ (∀ rest, s.host ≠ .reset :: rest) ∧ s.status.keyValid = true ∧ s.level = .atomic ∧
      s.status.doutValid = true) ∧
    (∃ s t, step s = .next t ∧ (∀ rest, s.host ≠ .reset :: rest) ∧ s.status.fault = true) :=
  ⟨⟨delivered [.present 0x1FFFF], _, rfl, by simp [delivered], rfl, rfl, rfl⟩, stuckAt [.hold], _, rfl, by simp [stuckAt], rfl⟩

theorem test_meets_DoutReadOnlyWhenValid :
    (∃ s : State, s.status.doutValid = false) ∧ (∃ s : State, s.status.busy = true) ∧
      ∃ s : State, Inv s ∧ s.status.busy = false ∧ s.status.doutValid = true :=
  ⟨⟨State.reset, rfl⟩, ⟨inProgress .e1 [], rfl⟩, delivered [], delivered_inv _, rfl, rfl⟩

theorem test_meets_StepKeepsInv :
    (∃ s t, Inv s ∧ step s = .next t ∧ s.level = .atomic) ∧ (∃ s t, Inv s ∧ step s = .next t ∧ s.stage = .d3) :=
  ⟨⟨keyed .atomic [.present 0x2D728], _, keyed_inv _ _, rfl, rfl⟩, inProgress .d3 [], _, inProgress_inv (by decide) _, rfl, rfl⟩

theorem test_meets_StepKeepsKeysExpanded : ∃ s t, KeysExpanded s ∧ s.status.keyValid = true ∧ step s = .next t :=
  ⟨keyed .atomic [.present 0x2D728], _, fun _ => ⟨0x4AF5, rfl, rfl, rfl⟩, rfl, rfl⟩

theorem test_meets_StepStopsOnlyWhenStuck :
    (∃ s, Inv s ∧ s.status.fault = true ∧ ∃ w rest, s.host = .present w :: rest) ∧
    (∃ s, Inv s ∧ s.status.fault = true ∧ s.host = []) :=
  ⟨⟨stuckAt [.present 0x14AF5], stuckAt_inv _, rfl, _, _, rfl⟩, stuckAt [], stuckAt_inv _, rfl, rfl⟩

theorem test_meets_DecodeAndEncodeAgree :
    Instr.wellFormed (.key 0xFFFF) = true ∧ Instr.wellFormed (.enc 0) = true ∧ decode 0x3FFFF#18 = .command (.dec 0xFFFF) := by decide

theorem test_meets_DecodeFollowsTheOpcodeTable :
    (0x10000#18 &&& 0x30000#18 = 0x10000#18 ∧ 0x1FFFF#18 &&& 0x30000#18 = 0x10000#18) ∧
    (0x20000#18 &&& 0x30000#18 = 0x20000#18 ∧ 0x2FFFF#18 &&& 0x30000#18 = 0x20000#18) ∧
    (0x30000#18 &&& 0x30000#18 = 0x30000#18 ∧ 0x3FFFF#18 &&& 0x30000#18 = 0x30000#18) ∧
    (0x00000#18 &&& 0x30000#18 = 0x00000#18 ∧ 0x0FFFF#18 &&& 0x30000#18 = 0x00000#18) := by decide

theorem test_meets_ReservedWordRaisesIllegalCommand :
    ∃ (s : State) (w : CommandWord) (rest : List HostMove), w.toNat < 0x10000 ∧ Accepting s ∧ s.host = .present w :: rest :=
  ⟨keyed .stages [.present 0x0FFFF], _, _, by decide, ⟨rfl, rfl⟩, rfl⟩

theorem test_meets_TableWordsDecodeAndRun : Accepting State.reset ∧ 2 ^ 18 ≤ 0x40000 % 2 ^ 24 := by decide

theorem test_meets_AdapterSendsOrRefuses : 0xFFFF ≤ 0xFFFF ∧ 0xFFFF < 0x10000 := by decide

theorem test_meets_AssemblerNeverTruncates :
    (readImmediate "0x10000".toList = some (65536, false) ∧ readImmediate "65536".toList = some (65536, true)) ∧
    assembleCommand (mnemonicText .DEC) "0xFFFF".toList = .ok 0x3FFFF#18 := by decide

theorem test_meets_KeyLoadsTheRoundKeys : Accepting State.reset ∧ Accepting (keyed .stages []) := ⟨⟨rfl, rfl⟩, rfl, rfl⟩

theorem test_meets_SubstitutionLaws :
    ∃ (σ : Equiv.Perm (Fin 4)) (s s' : Nibbles), s ≠ s' ∧ ∀ i, lane s' i = lane s (σ i) :=
  ⟨Equiv.swap 2 3, ⟨1, 2, 3, 4⟩, ⟨1, 2, 4, 3⟩, by decide, by decide⟩

theorem test_meets_MultiplierLoopStopsInFour : 4 ≤ 4 ∧ 4 ≤ 5 ∧ (15 : Nat) < 16 := by decide

theorem test_meets_MultiplierLaws : (1#4 : Nibble) ≠ 0#4 ∧ (15#4 : Nibble) ≠ 0#4 := by decide

theorem test_meets_RowShiftSwapsTwoAndThree : lane ⟨1, 2, 3, 3⟩ 2 = lane ⟨1, 2, 3, 3⟩ 3 := by decide

theorem test_meets_LaneStructure :
    (lane ⟨1, 2, 3, 4⟩ 0 = lane ⟨1, 5, 3, 6⟩ 0 ∧ lane ⟨1, 2, 3, 4⟩ 2 = lane ⟨1, 5, 3, 6⟩ 2) ∧
    (lane ⟨1, 2, 3, 4⟩ 1 = lane ⟨5, 2, 6, 4⟩ 1 ∧ lane ⟨1, 2, 3, 4⟩ 3 = lane ⟨5, 2, 6, 4⟩ 3) ∧
    lane ⟨1, 2, 3, 4⟩ 3 = lane ⟨7, 8, 9, 4⟩ 3 := by decide

theorem test_meets_StepRunsTheDecodedCommand :
    ∃ (s : State) (w : CommandWord) (rest : List HostMove) (i : Instr), Accepting s ∧ s.host = .present w :: rest ∧ decode w = .command i :=
  ⟨keyed .stages [.present 0x2D728], _, _, .enc 0xD728, ⟨rfl, rfl⟩, rfl, by decide⟩

/-- For EncDeliversTheCiphertext, DecDeliversThePlaintext, and with another result in DOUT for ResultDependsOnKeysAndOperand and
EarlierCallerLeavesNoTrace. -/
theorem test_meets_CipherCompletion :
    (∃ (s s' : State) (rk : RoundKeys), s.dout ≠ s'.dout ∧ Accepting s ∧ s.level = .atomic ∧ s.status.keyValid = true ∧ HoldsKeys s rk ∧
      Accepting s' ∧ s'.level = .atomic ∧ s'.status.keyValid = true ∧ HoldsKeys s' rk) ∧
    HoldsKeys (keyed .atomic []) (keyExpand 0x4AF5) ∧
    (∃ s : State, Accepting s ∧ s.status.keyValid = false) :=
  ⟨⟨keyed .atomic [], delivered [], keyExpand 0x4AF5, by decide, ⟨rfl, rfl⟩, rfl, rfl, ⟨rfl, rfl, rfl⟩, ⟨rfl, rfl⟩, rfl, rfl, ⟨rfl, rfl, rfl⟩⟩,
    ⟨rfl, rfl, rfl⟩, State.reset, ⟨rfl, rfl⟩, rfl⟩

theorem test_meets_CipherCommandFrame :
    (∃ x i s t, (i = .enc x ∨ i = .dec x) ∧ exec i s = .next t ∧ s.status.keyValid = true) ∧
    (∃ x i s t, (i = .enc x ∨ i = .dec x) ∧ exec i s = .next t ∧ s.status.keyValid = false) :=
  ⟨⟨0xD728, _, keyed .stages [], _, .inl rfl, rfl, rfl⟩, 0xD728, _, State.reset, _, .inr rfl, rfl, rfl⟩

theorem test_meets_EncryptionStages :
    (∃ s : State, Accepting s ∧ s.level = .stages ∧ s.status.keyValid = true) ∧
    ∀ g : Stage, ∃ (s : State) (v : Nibbles) (rk : RoundKeys), s.sreg = some v ∧ HoldsKeys s rk ∧ s.stage = g :=
  ⟨⟨keyed .stages [], ⟨rfl, rfl⟩, rfl, rfl⟩, fun g => ⟨inProgress g [], _, keyExpand 0x4AF5, rfl, ⟨rfl, rfl, rfl⟩, rfl⟩⟩

theorem test_meets_DecryptionStages :
    (∃ s : State, Accepting s ∧ s.level = .stages ∧ s.status.keyValid = true) ∧
    ∀ g ∈ [Stage.d1, .d2, .d3, .d4, .d5, .d6], ∃ (s : State) (v : Nibbles) (rk : RoundKeys), s.sreg = some v ∧ HoldsKeys s rk ∧ s.stage = g :=
  ⟨⟨keyed .stages [], ⟨rfl, rfl⟩, rfl, rfl⟩, fun g _ => ⟨inProgress g [], _, keyExpand 0x4AF5, rfl, ⟨rfl, rfl, rfl⟩, rfl⟩⟩

theorem test_meets_StagesAgreeWithAtomic :
    ∃ (s : State) (w : CommandWord) (rest : List HostMove) (x : Block) (i : Instr),
      Inv s ∧ Accepting s ∧ s.status.keyValid = true ∧ s.level = .stages ∧ s.host = .present w :: rest ∧
      (∀ m ∈ rest, ∃ w', m = .present w') ∧ (i = .enc x ∨ i = .dec x) ∧ decode w = .command i :=
  ⟨keyed .stages [.present 0x2D728, .present 0x10000], 0x2D728, [.present 0x10000], 0xD728, _, keyed_inv _ _, ⟨rfl, rfl⟩, rfl, rfl, rfl,
    by simp, .inl rfl, by decide⟩

theorem test_meets_SixStageStepsToIdle :
    (∃ s : State, Inv s ∧ s.stage = .e1 ∧ ∀ m ∈ s.host, ∃ w, m = .present w) ∧
    (∃ s : State, Inv s ∧ s.stage = .d1 ∧ ∀ m ∈ s.host, ∃ w, m = .present w) :=
  ⟨⟨inProgress .e1 [.present 0x10000], inProgress_inv (by decide) _, rfl, by simp [inProgress]⟩,
    inProgress .d1 [], inProgress_inv (by decide) _, rfl, by simp [inProgress]⟩

theorem test_meets_CommandInProgressKeepsKeysAndDout :
    ∃ s t : State, s.stage ≠ .idle ∧ (∀ rest, s.host ≠ .reset :: rest) ∧ step s = .next t ∧ s.stage ≠ .e6 ∧ s.stage ≠ .d6 ∧
      ∃ w rest, s.host = .present w :: rest :=
  ⟨inProgress .e5 [.present 0x10000], _, by decide, by simp [inProgress], rfl, by decide, by decide, _, _, rfl⟩

theorem test_meets_RoundTrip : Accepting State.reset ∧ State.reset.level = .atomic := ⟨⟨rfl, rfl⟩, rfl⟩

theorem test_meets_EncAfterKeyUsesTheNewKeys :
    ∃ (k p : Block) (s : State) (rest : List HostMove), Accepting s ∧ s.level = .atomic ∧
      s.host = .present (encode (.key k)) :: .present (encode (.enc p)) :: rest :=
  ⟨0xA73B, 0x6F6B, keyed .atomic [.present 0x1A73B, .present 0x26F6B], [], ⟨rfl, rfl⟩, rfl, by decide⟩

theorem test_meets_FaultsArePreciseWithTwoCauses :
    (∃ s t : State, step s = .next t ∧ s.status.fault = false ∧ t.status.fault = true ∧ t.status.cause = 1#2) ∧
    (∃ s t : State, step s = .next t ∧ s.status.fault = false ∧ t.status.fault = true ∧ t.status.cause = 2#2) :=
  ⟨⟨keyed .atomic [.present 0x00000], _, rfl, rfl, rfl, rfl⟩, { State.reset with host := [.present 0x30000] }, _, rfl, rfl, rfl, rfl⟩

theorem test_meets_StuckUntilReset :
    (∃ s : State, s.status.fault = true ∧ s.stage = .idle ∧ ∃ w rest, s.host = .present w :: rest) ∧
    (∃ s t : State, s.status.fault = true ∧ s.stage = .idle ∧ step s = .next t ∧ ∀ rest, s.host ≠ .reset :: rest) ∧
    (∃ (s : State) (v : Block), s.status.fault = true ∧ s.stage = .idle ∧ s.status.busy = false ∧ s.status.doutValid = true ∧ s.dout = some v) :=
  ⟨⟨stuckAt [.present 0x14AF5], rfl, rfl, _, _, rfl⟩, ⟨stuckAt [], _, rfl, rfl, rfl, by simp [stuckAt]⟩,
    raiseFault .illegalCommand (delivered []), _, rfl, rfl, rfl, rfl, rfl⟩

theorem test_meets_ChecksRunInOrder :
    (∃ (s : State) (w : CommandWord) (rest : List HostMove), s.stage = .idle ∧ s.host = .present w :: rest ∧ s.status.fault = true ∧ w.toNat < 0x10000) ∧
    (∃ (s : State) (w : CommandWord) (rest : List HostMove), s.stage = .idle ∧ s.host = .present w :: rest ∧ s.status.fault = false ∧ w.toNat < 0x10000) ∧
    (∃ (s : State) (w : CommandWord) (rest : List HostMove) (x : Block), s.stage = .idle ∧ s.host = .present w :: rest ∧ s.status.fault = false ∧ decode w = .command (.enc x) ∧
      s.status.keyValid = false) ∧
    (∃ (s : State) (w : CommandWord) (rest : List HostMove) (k : Block), s.stage = .idle ∧ s.host = .present w :: rest ∧ s.status.fault = false ∧ decode w = .command (.key k)) ∧
    (∃ (s : State) (w : CommandWord) (rest : List HostMove) (i : Instr) (rk : RoundKeys), s.stage = .idle ∧ s.host = .present w :: rest ∧ s.status.fault = false ∧ decode w = .command i ∧
      s.status.keyValid = true ∧ HoldsKeys s rk) ∧
    (∃ s t : State, runStage s = .next t ∧ s.stage ≠ .idle) :=
  ⟨⟨stuckAt [.present 0x0FFFF], 0x0FFFF, _, rfl, rfl, rfl, by decide⟩,
    ⟨keyed .atomic [.present 0x0FFFF], 0x0FFFF, _, rfl, rfl, rfl, by decide⟩,
    ⟨{ State.reset with host := [.present 0x20000] }, 0x20000, _, 0, rfl, rfl, rfl, by decide, rfl⟩,
    ⟨{ State.reset with host := [.present 0x10000] }, 0x10000, _, 0, rfl, rfl, rfl, by decide⟩,
    ⟨keyed .stages [.present 0x3FFFF], 0x3FFFF, _, .dec 0xFFFF, keyExpand 0x4AF5, rfl, rfl, rfl, by decide, rfl, rfl, rfl, rfl⟩,
    inProgress .e1 [], _, rfl, by decide⟩

theorem test_meets_NoReturnFromFault :
    ∃ s t : State, s.status.fault = true ∧ step s = .next t ∧ ∀ rest, s.host ≠ .reset :: rest :=
  ⟨stuckAt [.hold], _, rfl, rfl, by simp [stuckAt]⟩

theorem test_meets_ResetAtAnyTime :
    (∃ (s : State) (rest : List HostMove), s.host = .reset :: rest ∧ s.status.fault = true) ∧
    (∃ (s : State) (rest : List HostMove), s.host = .reset :: rest ∧ s.status.busy = true) :=
  ⟨⟨stuckAt [.reset], [], rfl, rfl⟩, inProgress .e3 [.reset, .present 0x14AF5], _, rfl, rfl⟩

theorem test_meets_NothingHappensUntilACommand :
    (State.reset.stage = .idle ∧ State.reset.host = []) ∧
    ∃ (s : State) (rest : List HostMove), s.stage = .idle ∧ s.host = .hold :: rest :=
  ⟨⟨rfl, rfl⟩, delivered [.hold], [], rfl, rfl⟩

theorem test_meets_ObservationShowsSOnlyWhenIdle :
    (∃ s, Inv s ∧ Finished s ∧ s.host = [] ∧ s.sreg ≠ none) ∧ (∃ s, Inv s ∧ Stuck s) ∧
    (∃ s t v, s.status.busy = true ∧ Inv s ∧ s.stage ≠ .idle ∧ step s = .next t ∧ t.stage ≠ .idle ∧ s.sreg ≠ some v) :=
  ⟨⟨delivered [], delivered_inv _, .inl ⟨rfl, rfl⟩, rfl, by decide⟩, ⟨stuckAt [.present 0], stuckAt_inv _, rfl, rfl, _, _, rfl⟩,
    inProgress .d5 [.present 0], _, ⟨0, 0, 0, 0⟩, rfl, inProgress_inv (by decide) _, by decide, rfl, by decide, by decide⟩

theorem test_meets_EveryRunEnds :
    (∃ s, Inv s ∧ Finished s ∧ step s = .next s) ∧ (∃ s, Inv s ∧ Finished s ∧ step s = .fault .stuck) ∧ ∃ s, Inv s ∧ ¬Finished s :=
  ⟨⟨delivered [], delivered_inv _, .inl ⟨rfl, rfl⟩, rfl⟩, ⟨stuckAt [.present 0], stuckAt_inv _, .inr ⟨rfl, rfl, _, _, rfl⟩, rfl⟩,
    stuckAt [.hold], stuckAt_inv _, by simp [stuckAt]⟩

end Sys2Proof.Tests
end

section
/-! PROOFS. Family 10_state.md. First layer: everything one step can do, flattened into one inductive relation, so that each
invariant is one case split over named effects. -/

namespace Sys2Proof.Machine

open Sys2Proof.Safety

/-- R82, R84: the word spells ENC or DEC with the operand `x`. -/
def SpellsCipher (w : CommandWord) (x : Block) : Prop :=
  decode w = .command (.enc x) ∨ decode w = .command (.dec x)

/-- R91 to R93: what makes an accepted word raise a cause. -/
inductive Raises (s : State) (w : CommandWord) : Cause → Prop
  | illegalCommand (hd : decode w = .reserved) : Raises s w .illegalCommand
  | noKey {x : Block} (hd : SpellsCipher w x) (hk : s.status.keyValid = false) : Raises s w .noKey

/-- The effects of one step, each with the guard under which it happens. `step_effect` ties it to `step`. -/
inductive StepEffect (s : State) : State → Prop
  | reset (rest) (hh : s.host = .reset :: rest) : StepEffect s (applyReset { s with host := rest })
  | fault {w c} (rest) (hh : s.host = .present w :: rest) (ha : Accepting s) (hc : Raises s w c) :
      StepEffect s (raiseFault c { s with host := rest })
  | key {w k} (rest) (hh : s.host = .present w :: rest) (ha : Accepting s) (hd : decode w = .command (.key k)) :
      StepEffect s (loadKeys (keyExpand k) { s with host := rest })
  | deliver {w x v} (rest) (hh : s.host = .present w :: rest) (ha : Accepting s) (hd : SpellsCipher w x)
      (hk : s.status.keyValid = true) (hl : s.level = .atomic) : StepEffect s (deliver v { s with host := rest })
  | accept {w x g} (rest) (hh : s.host = .present w :: rest) (ha : Accepting s) (hd : SpellsCipher w x)
      (hk : s.status.keyValid = true) (hl : s.level = .stages) (hg : g ≠ .idle) :
      StepEffect s (beginStages (toState x) g { s with host := rest })
  | stay (rest) (hh : StageTurn s rest) (hs : s.stage = .idle) : StepEffect s { s with host := rest }
  | stage {v g} (rest) (hh : StageTurn s rest) (hs : s.stage ≠ .idle) (hg : g ≠ .idle) :
      StepEffect s (toStage v g { s with host := rest })
  | finish {v} (rest) (hh : StageTurn s rest) (hs : s.stage = .e6 ∨ s.stage = .d6) (hv : s.sreg = some v) :
      StepEffect s (finishStages v { s with host := rest })

/-- R82, R84, R86, R87: the effects of an accepted ENC or DEC. -/
theorem StepEffect.of_cipherEffect {f : RoundKeys → Block → Nibbles} {g : Stage} {x : Block} {s t : State} {w : CommandWord}
    {rest : List HostMove} (hh : s.host = .present w :: rest) (ha : Accepting s) (hd : SpellsCipher w x)
    (h : CipherEffect f g x { s with host := rest } t) (hg : g ≠ .idle) : StepEffect s t := by
  rcases h with ⟨hk, rfl⟩ | ⟨hk, hl, rfl⟩ | ⟨hk, hl, rk, -, -, -, rfl⟩
  · exact .fault rest hh ha (.noKey hd hk)
  · exact .accept rest hh ha hd hk hl hg
  · exact .deliver rest hh ha hd hk hl

/-- R80: the effects of an accepted word. -/
theorem StepEffect.of_acceptWord {s t : State} {w : CommandWord} {rest : List HostMove} (hh : s.host = .present w :: rest)
    (h : acceptWord w { s with host := rest } = .next t) : StepEffect s t := by
  obtain ⟨hf, hs, ⟨hd, rfl⟩ | ⟨i, hd, h⟩⟩ := acceptWord_next h
  · exact .fault rest hh ⟨hf, hs⟩ (.illegalCommand hd)
  · obtain ⟨-, -, ⟨k, rfl, rfl⟩ | ⟨p, rfl, he⟩ | ⟨c, rfl, he⟩⟩ := exec_next h
    · exact .key rest hh ⟨hf, hs⟩ hd
    · exact .of_cipherEffect hh ⟨hf, hs⟩ (.inl hd) he nofun
    · exact .of_cipherEffect hh ⟨hf, hs⟩ (.inr hd) he nofun

/-- R86 to R88, R105: the effects of a stage step. -/
theorem StepEffect.of_runStage {s t : State} {rest : List HostMove} (hh : StageTurn s rest)
    (h : runStage { s with host := rest } = .next t) : StepEffect s t := by
  rcases runStage_next h with ⟨hs, rfl⟩ | ⟨hs, v, hv, ⟨v', g, hg, rfl⟩ | ⟨hlast, rfl⟩⟩
  · exact .stay rest hh hs
  · exact .stage rest hh hs hg
  · exact .finish rest hh hlast hv

/-- Every next state of a step is one of the effects. -/
theorem step_effect {s t : State} (h : step s = .next t) : StepEffect s t := by
  rcases step_next h with ⟨rest, hh, rfl⟩ | ⟨w, rest, hh, -, h⟩ | ⟨rest, hh, h⟩
  · exact .reset rest hh
  · exact .of_acceptWord hh h
  · exact .of_runStage hh h

/-- R104: a reset move is a step from every state. -/
theorem step_of_reset {s : State} {rest : List HostMove} (hh : s.host = .reset :: rest) :
    step s = .next (applyReset { s with host := rest }) := by
  simp [step, hostTurn, hh]

/-- The host's moves of a stage step lead to that stage step. -/
theorem step_of_stageTurn {s : State} {rest : List HostMove} (h : StageTurn s rest) :
    step s = runStage { s with host := rest } := by
  cases s
  rcases h with ⟨hh, rfl⟩ | hh | ⟨hs, rfl, w, r, hh⟩
  · cases hh; rfl
  · cases hh; rfl
  · cases hh; exact if_neg hs

/-- R22: STATUS reads 0x00 after reset. -/
theorem readStatus_reset : readStatus State.reset = 0x00#8 := by decide

end Sys2Proof.Machine
end

section
/-! PROOFS. Second layer: what the invariant of R24 gives, and, for each operation on the registers, that it keeps it. -/

namespace Sys2Proof.Safety

open Sys2Proof.Machine

variable {s : State}

/-- R19: an idle block is not busy. -/
theorem Inv.busy_eq_false_of_idle (h : Inv s) (hs : s.stage = .idle) : s.status.busy = false :=
  Bool.eq_false_iff.2 fun hb => h.busy_stage.1 hb hs

/-- R19: a block that is not busy is idle. -/
theorem Inv.idle_of_busy_eq_false (h : Inv s) (hb : s.status.busy = false) : s.stage = .idle :=
  Decidable.by_contra fun hs => Bool.eq_false_iff.1 hb (h.busy_stage.2 hs)

/-- The invariant speaks of no host move. -/
theorem Inv.withHost (h : Inv s) (rest : List HostMove) : Inv { s with host := rest } :=
  { h with atomic_idle := h.atomic_idle }

/-- R22: the reset values satisfy the invariant at either level, before any moves of the host. -/
theorem inv_reset (level : Level) (host : List HostMove) : Inv { State.reset with level := level, host := host } := by
  constructor <;> simp [State.reset]

/-- R94: fault entry in an idle block writes FAULT and CAUSE together. -/
theorem Inv.raiseFault (h : Inv s) (hs : s.stage = .idle) (c : Cause) : Inv (raiseFault c s) :=
  { h with
    in_progress := fun hs' => absurd hs hs'
    fault_cause := by cases c <;> simp [causeCode]
    cause_reserved := by cases c <;> simp [causeCode] }

/-- R60: KEY writes the three round keys with KEY_VALID. -/
theorem Inv.loadKeys (h : Inv s) (hs : s.stage = .idle) (rk : RoundKeys) : Inv (loadKeys rk s) :=
  { h with
    rk0_valid := rfl
    rk1_valid := rfl
    rk2_valid := rfl
    in_progress := fun hs' => absurd hs hs' }

/-- R82, R84: ENC and DEC write S, DOUT and DOUT_VALID together. -/
theorem Inv.deliver (h : Inv s) (hs : s.stage = .idle) (v : Nibbles) : Inv (deliver v s) :=
  { h with
    dout_valid := fun _ => rfl
    dout_is_s := fun _ _ => ⟨v, rfl, rfl⟩
    in_progress := fun hs' => absurd hs hs' }

/-- R86, R87: acceptance at stage level enters a stage with BUSY = 1 and DOUT_VALID = 0. -/
theorem Inv.beginStages (h : Inv s) (hf : s.status.fault = false) (hk : s.status.keyValid = true) (hl : s.level = .stages)
    {g : Stage} (hg : g ≠ .idle) (v : Nibbles) : Inv (beginStages v g s) :=
  { h with
    dout_valid := fun hg' => absurd hg' hg
    dout_is_s := fun hg' => absurd hg' hg
    busy_stage := by simp [hg]
    atomic_idle := by simp [hl]
    in_progress := fun _ => ⟨rfl, hk, rfl, hf⟩ }

/-- R86, R87: a stage that writes S stays in progress. -/
theorem Inv.toStage (h : Inv s) (hs : s.stage ≠ .idle) {g : Stage} (hg : g ≠ .idle) (v : Nibbles) : Inv (toStage v g s) :=
  { h with
    dout_valid := fun hg' => absurd hg' hg
    dout_is_s := fun hg' => absurd hg' hg
    busy_stage := iff_of_true (h.busy_stage.2 hs) hg
    atomic_idle := fun hl => absurd (h.atomic_idle hl) hs
    in_progress := fun _ => ⟨rfl, (h.in_progress hs).2⟩ }

/-- R86, R87: the last stage ends the command with S in DOUT. -/
theorem Inv.finishStages (h : Inv s) {v : Nibbles} (hv : s.sreg = some v) : Inv (finishStages v s) :=
  { h with
    dout_valid := fun _ => rfl
    dout_is_s := fun _ _ => ⟨v, hv, rfl⟩
    busy_stage := by simp
    atomic_idle := fun _ => rfl
    in_progress := fun hs => absurd rfl hs }

end Sys2Proof.Safety
end

section
/-! PROOFS. The obligations on invariants (R24, R14, R60). -/

namespace Sys2Proof.Proofs

open Sys2Proof.Machine Sys2Proof.Safety

/-- Settles O8, by the effects of a step: each operation keeps the invariant. -/
theorem stepKeepsInv : Obligations.StepKeepsInv := by
  intro s t h hst
  cases step_effect hst with
  | reset => exact inv_reset _ _
  | fault rest _ ha => exact (h.withHost rest).raiseFault ha.2 _
  | key rest _ ha => exact (h.withHost rest).loadKeys ha.2 _
  | deliver rest _ ha => exact (h.withHost rest).deliver ha.2 _
  | accept rest _ ha _ hk hl hg => exact (h.withHost rest).beginStages ha.1 hk hl hg _
  | stay rest => exact h.withHost rest
  | stage rest _ hs hg => exact (h.withHost rest).toStage hs hg _
  | finish rest _ _ hv => exact (h.withHost rest).finishStages hv

/-- Settles O9: KEY loads an expansion, reset clears KEY_VALID, and no other effect writes RK or KEY_VALID. -/
theorem stepKeepsKeysExpanded : Obligations.StepKeepsKeysExpanded := by
  intro s t h hst
  cases step_effect hst with
  | reset => exact nofun
  | key => exact fun _ => ⟨_, rfl, rfl, rfl⟩
  | fault | deliver | accept | stay | stage | finish => exact h

/-- Settles O7: a run starts from the reset values. -/
theorem runStartsInInvariant : Obligations.RunStartsInInvariant :=
  ⟨inv_reset .atomic [], nofun, fun _ _ => ⟨inv_reset _ _, nofun⟩⟩

end Sys2Proof.Proofs
end

section
/-! PROOFS. The obligations on what writes a register (R14, R15, R16, R104). -/

namespace Sys2Proof.Proofs

open Sys2Proof.Machine Sys2Proof.Safety

/-- Settles O3: of the effects only reset and KEY write RK. -/
theorem roundKeysChangeOnlyByKeyOrReset : Obligations.RoundKeysChangeOnlyByKeyOrReset := by
  intro s t hst
  cases step_effect hst with
  | reset _ hh => exact .inr (.inl ⟨_, hh⟩)
  | key _ hh ha hd => exact .inr (.inr ⟨_, _, _, hh, ha, hd, rfl, rfl, rfl⟩)
  | fault | deliver | accept | stay | stage | finish => exact .inl ⟨rfl, rfl, rfl⟩

/-- Settles O4: of the effects only reset, an atomic delivery and a last stage write DOUT. -/
theorem doutChangesOnlyByCompletionOrReset : Obligations.DoutChangesOnlyByCompletionOrReset := by
  intro s t hst
  cases step_effect hst with
  | reset _ hh => exact .inr (.inl ⟨_, hh⟩)
  | deliver _ hh ha hd _ hl => exact .inr (.inr ⟨_, rfl, rfl, rfl, ha.2, .inr (.inr ⟨_, _, _, hh, ha, hl, hd⟩)⟩)
  | finish _ _ hs hv => exact .inr (.inr ⟨_, hv, rfl, rfl, rfl, hs.imp_right .inl⟩)
  | fault | key | accept | stay | stage => exact .inl rfl

/-- Settles O5: fault entry needs FAULT = 0, and only acceptance at stage level clears DOUT_VALID. -/
theorem onlyResetClearsStatus : Obligations.OnlyResetClearsStatus := by
  intro s t hst hr
  cases step_effect hst with
  | reset _ hh => exact absurd hh (hr _)
  | fault _ _ ha => exact ⟨id, by simp [ha.1], fun _ => id⟩
  | key => exact ⟨fun _ => rfl, fun hf => ⟨hf, rfl⟩, fun _ => id⟩
  | accept _ _ _ _ _ hl => exact ⟨id, fun hf => ⟨hf, rfl⟩, by simp [hl]⟩
  | deliver | finish => exact ⟨id, fun hf => ⟨hf, rfl⟩, fun _ _ => rfl⟩
  | stay | stage => exact ⟨id, fun hf => ⟨hf, rfl⟩, fun _ => id⟩

/-- Settles O57: a reset move is taken at once, whatever the block is doing. -/
theorem resetAtAnyTime : Obligations.ResetAtAnyTime := by
  intro s rest hh
  exact ⟨_, step_of_reset hh, rfl, rfl, rfl, rfl, rfl, readStatus_reset, rfl, rfl, rfl, rfl⟩

/-- Settles O1: each register by its entry in `State.reset`. -/
theorem resetStateIsAsGiven : Obligations.ResetStateIsAsGiven :=
  ⟨rfl, rfl, rfl, rfl, rfl, rfl, rfl, rfl, rfl, rfl, readStatus_reset, rfl⟩

end Sys2Proof.Proofs
end

section
/-! PROOFS. What the host reads and what a run shows (R16, R23, R30, R88, R110). -/

namespace Sys2Proof.Machine

open Sys2Proof.Safety

/-- R16: bits 3:0 of the STATUS word, each a one-bit field of the concatenation. -/
theorem statusWord_low_bits (t : Status) :
    (statusWord t).getLsbD 0 = t.keyValid ∧ (statusWord t).getLsbD 1 = t.doutValid ∧
    (statusWord t).getLsbD 2 = t.busy ∧ (statusWord t).getLsbD 3 = t.fault := by
  simp only [statusWord, BitVec.getLsbD_append]
  simp

/-- R16: from bit 4 on the STATUS word is CAUSE, extended by zeros. -/
theorem statusWord_getLsbD_add_four (t : Status) (i : Nat) : (statusWord t).getLsbD (i + 4) = t.cause.getLsbD i := by
  simp only [statusWord, BitVec.getLsbD_append]
  simpa [Nat.lt_succ_iff] using BitVec.lt_of_getLsbD (x := t.cause) (i := i)

/-- R23, R108: a read of DOUT with DOUT_VALID = 0 is refused. -/
theorem readDout_of_not_doutValid {s : State} (hv : s.status.doutValid = false) : readDout s = .error .doutNotValid := by
  simp [readDout, hv]

/-- R23, R108: a permitted read gives what DOUT holds. -/
theorem readDout_of_doutValid {s : State} {b : Block} (hb : s.status.busy = false) (hv : s.status.doutValid = true)
    (hd : s.dout = some b) : readDout s = .ok b := by
  simp [readDout, hb, hv, hd]

/-- R24, R110: at a command boundary the observed DOUT is what the register holds, which is no value where a read is refused. -/
theorem readDout_toOption_of_idle {s : State} (h : Inv s) (hs : s.stage = .idle) : (readDout s).toOption = s.dout := by
  have hsome := h.dout_valid hs
  cases hv : s.status.doutValid with
  | false =>
    have hd : s.dout = none := by simpa [hv] using hsome
    rw [readDout_of_not_doutValid hv, hd]
    rfl
  | true =>
    obtain ⟨b, hd⟩ := Option.isSome_iff_exists.1 (hsome.trans hv)
    rw [readDout_of_doutValid (h.busy_eq_false_of_idle hs) hv hd, hd]
    rfl

/-- R110: both ends of a run are at a command boundary. -/
theorem idle_of_finished {s : State} (h : Finished s) : s.stage = .idle := by
  obtain ⟨-, hs⟩ | ⟨-, hs, -⟩ := h <;> exact hs

/-- R88: with BUSY = 1 the observation does not depend on S. -/
theorem observe_sreg_of_busy {s : State} (h : s.status.busy = true) (v : Option Nibbles) :
    observe { s with sreg := v } = observe s := by
  rw [observe_of_busy h, observe_of_busy (s := { s with sreg := v }) h]
  rfl

/-- R88: a stage that does not end the command copies S into no other register, so from any S it leads to the same state, S apart. -/
theorem runStage_sreg {s t : State} (h : runStage s = .next t) (ht : t.stage ≠ .idle) (v : Nibbles) :
    ∃ v', runStage { s with sreg := some v } = .next { t with sreg := v' } := by
  cases s with
  | mk sreg rk0 rk1 rk2 dout status stage level host =>
    cases stage
    case idle =>
      cases h
      exact absurd rfl ht
    case e6 | d6 =>
      obtain ⟨_, -, h⟩ := withValue_next h
      cases h
      exact absurd rfl ht
    case e1 | e3 | e5 | d1 | d3 | d5 =>
      obtain ⟨k, rfl, h⟩ := withValue_next h
      obtain ⟨_, -, h⟩ := withValue_next h
      cases h
      exact ⟨_, rfl⟩
    case e2 | e4 | d2 | d4 =>
      obtain ⟨_, -, h⟩ := withValue_next h
      cases h
      exact ⟨_, rfl⟩

/-- R86 to R88: a step into a stage in progress, from one, is a stage step. -/
theorem stageTurn_of_in_progress {s t : State} (h : step s = .next t) (hs : s.stage ≠ .idle) (ht : t.stage ≠ .idle) :
    ∃ rest, StageTurn s rest ∧ runStage { s with host := rest } = .next t := by
  rcases step_next h with ⟨_, -, rfl⟩ | ⟨_, _, -, hidle, -⟩ | hturn
  · exact absurd rfl ht
  · exact absurd hidle hs
  · exact hturn

/-- R88: a step inside a command leads from any S to the same state, S apart. -/
theorem step_sreg_of_in_progress {s t : State} (h : step s = .next t) (hs : s.stage ≠ .idle) (ht : t.stage ≠ .idle)
    (v : Nibbles) : ∃ v', step { s with sreg := some v } = .next { t with sreg := v' } := by
  obtain ⟨rest, hturn, h⟩ := stageTurn_of_in_progress h hs ht
  obtain ⟨v', h'⟩ := runStage_sreg h ht v
  exact ⟨v', (step_of_stageTurn (s := { s with sreg := some v }) hturn).trans h'⟩

end Sys2Proof.Machine

namespace Sys2Proof.Proofs

open Sys2Proof.Machine Sys2Proof.Safety

/-- Settles O6: with BUSY = 0 the block is idle, where R24 ties DOUT to S. -/
theorem doutReadOnlyWhenValid : Obligations.DoutReadOnlyWhenValid := by
  refine ⟨fun s h => h.elim readDout_of_not_doutValid readDout_of_busy, fun s h hb hv => ?_⟩
  obtain ⟨v, hS, hd⟩ := h.dout_is_s (h.idle_of_busy_eq_false hb) hv
  exact ⟨v, hS, readDout_of_doutValid hb hv hd⟩

/-- Settles O59: a finished run is idle, where S and DOUT are shown; in progress BUSY = 1 hides both. -/
theorem observationShowsSOnlyWhenIdle : Obligations.ObservationShowsSOnlyWhenIdle := by
  refine ⟨fun s h hfin => ?_, fun s v hb => ?_, fun s t v h hs hst ht => ?_⟩
  · have hs := idle_of_finished hfin
    simp [observe, observedS_of_not_busy (h.busy_eq_false_of_idle hs), readDout_toOption_of_idle h hs]
  · refine ⟨?_, ?_, observe_sreg_of_busy hb v⟩
    · rw [observe_of_busy hb]
    · rw [observe_of_busy hb]
  · obtain ⟨v', ht'⟩ := step_sreg_of_in_progress hst hs ht v
    have hbusy : t.status.busy = true := (stepKeepsInv s t h hst).busy_stage.2 ht
    exact ⟨_, ht', observe_sreg_of_busy hbusy v'⟩

/-- Settles O2, bit by bit: the low bits are the one-bit fields, and above them stands CAUSE. -/
theorem statusWordLayout : Obligations.StatusWordLayout := by
  intro s
  obtain ⟨hkey, hdout, hbusy, hfault⟩ := statusWord_low_bits s.status
  refine ⟨hkey, hdout, hbusy, hfault, ?_, ?_⟩
  · refine BitVec.eq_of_getLsbD_eq fun i hi => ?_
    simp [readStatus, hi, Nat.add_comm 4 i, statusWord_getLsbD_add_four]
  · refine BitVec.eq_of_getLsbD_eq fun i hi => ?_
    simp [readStatus, show 6 + i = (i + 2) + 4 by omega, statusWord_getLsbD_add_four]

end Sys2Proof.Proofs
end

section
/-! PROOFS. Family 20_memory.md. The forward direction of a step, to run commands one after the other (R33, R80): the word of a
command, taken by an accepting block, is that command's meaning, and what KEY and ENC then answer. -/

namespace Sys2Proof.Machine

open Sys2Proof.Safety

/-- R39: a word with the OP of a mnemonic decodes to that command with the word's immediate. -/
theorem decode_of_opField {w : CommandWord} {m : Mnemonic} (h : opField w = opOf m) :
    decode w = .command (instrOf m (immField w)) := by
  cases m <;> simp [decode, h, opOf, instrOf]

/-- A command is that of its mnemonic and its operand. -/
theorem instrOf_mnemonicOf (i : Instr) : instrOf (mnemonicOf i) (operandOf i) = i := by
  cases i <;> rfl

/-- R39, R45: decoding the word of a command gives the command back. -/
@[simp] theorem decode_encode (i : Instr) : decode (encode i) = .command i := by
  have ⟨hop, himm⟩ := Laws.EncodedFields.fields_of_concat (opOf (mnemonicOf i)) (operandOf i)
  rw [encode, decode_of_opField hop, himm, instrOf_mnemonicOf]

/-- R80, R108: the word presented to an idle block is offered for acceptance, and is used up by it. -/
theorem step_of_present {s : State} {w : CommandWord} {rest : List HostMove} (hh : s.host = .present w :: rest)
    (hs : s.stage = .idle) : step s = acceptWord w { s with host := rest } := by
  simp [step, hostTurn, hh, hs]

/-- R80: an accepting block answers a word that spells a command by that command's meaning. -/
theorem acceptWord_of_command {s : State} {w : CommandWord} {i : Instr} (ha : Accepting s) (hd : decode w = .command i) :
    acceptWord w s = exec i s := by
  rw [acceptWord, whenAccepting_of_accepting ha.1 ha.2, hd]

/-- R80: the step of an accepting block on the presented word of a command. -/
theorem step_of_command {s : State} {w : CommandWord} {i : Instr} {rest : List HostMove} (ha : Accepting s)
    (hh : s.host = .present w :: rest) (hd : decode w = .command i) : step s = exec i { s with host := rest } :=
  (step_of_present hh ha.2).trans (acceptWord_of_command ha hd)

/-- R60: what an accepted KEY answers. -/
theorem exec_key_of_accepting {s : State} (ha : Accepting s) (k : Block) :
    exec (.key k) s = .next (loadKeys (keyExpand k) s) :=
  whenAccepting_of_accepting ha.1 ha.2

/-- R93: with KEY_VALID = 1 the command is taken. -/
theorem whenKeyed_of_keyValid {s : State} {k : Result} (hk : s.status.keyValid = true) : whenKeyed s k = k :=
  if_pos hk

/-- R82: what an accepted ENC answers in the atomic model, from the round keys that the registers hold. -/
theorem exec_enc_of_holdsKeys {s : State} {rk : RoundKeys} (ha : Accepting s) (hl : s.level = .atomic)
    (hk : s.status.keyValid = true) (hrk : HoldsKeys s rk) (p : Block) :
    exec (.enc p) s = .next (deliver (encrypt rk p) s) := by
  obtain ⟨h0, h1, h2⟩ := hrk
  rw [exec, execEnc, whenAccepting_of_accepting ha.1 ha.2, whenKeyed_of_keyValid hk, hl]
  exact withRoundKeys_of_values h0 h1 h2

/-- R60: the registers hold the keys just loaded. -/
theorem holdsKeys_loadKeys (rk : RoundKeys) (s : State) : HoldsKeys (loadKeys rk s) rk :=
  ⟨rfl, rfl, rfl⟩

/-- R60, R80: the step that takes KEY. -/
theorem step_key {s : State} {k : Block} {rest : List HostMove} (ha : Accepting s)
    (hh : s.host = .present (encode (.key k)) :: rest) : step s = .next (loadKeys (keyExpand k) { s with host := rest }) := by
  rw [step_of_command ha hh (decode_encode _)]
  exact exec_key_of_accepting (s := { s with host := rest }) ha k

/-- R80, R82: the atomic step that takes ENC, from the round keys that the registers hold. -/
theorem step_enc_of_holdsKeys {s : State} {p : Block} {rk : RoundKeys} {rest : List HostMove} (ha : Accepting s)
    (hl : s.level = .atomic) (hk : s.status.keyValid = true) (hrk : HoldsKeys s rk)
    (hh : s.host = .present (encode (.enc p)) :: rest) :
    step s = .next (deliver (encrypt rk p) { s with host := rest }) := by
  rw [step_of_command ha hh (decode_encode _)]
  exact exec_enc_of_holdsKeys (s := { s with host := rest }) ha hl hk hrk p

/-- R95: with FAULT = 1 every command is stuck. -/
theorem exec_of_fault {s : State} (hf : s.status.fault = true) (i : Instr) : exec i s = .fault .stuck := by
  cases i <;> exact whenAccepting_of_fault hf

/-- R95, R96: with FAULT = 1 an idle block is stuck at any presented word. -/
theorem step_of_present_of_fault {s : State} {w : CommandWord} {rest : List HostMove} (hf : s.status.fault = true)
    (hs : s.stage = .idle) (hh : s.host = .present w :: rest) : step s = .fault .stuck := by
  rw [step_of_present hh hs]
  exact whenAccepting_of_fault hf

/-- R95: with FAULT = 1 a step of an idle block, other than reset, uses up at most a move of the host: every other effect needs
FAULT = 0 or a stage in progress. -/
theorem step_frame_of_fault {s t : State} (hf : s.status.fault = true) (hs : s.stage = .idle) (h : step s = .next t)
    (hr : ∀ rest, s.host ≠ .reset :: rest) : t = { s with host := t.host } := by
  cases step_effect h with
  | reset _ hh => exact absurd hh (hr _)
  | fault _ _ ha | key _ _ ha | deliver _ _ ha | accept _ _ ha => cases hf.symm.trans ha.1
  | stay => rfl
  | stage _ _ hs' => exact absurd hs hs'
  | finish _ _ hs' => simp [hs] at hs'

end Sys2Proof.Machine

namespace Sys2Proof.Proofs

open Sys2Proof.Machine Sys2Proof.Safety

/-- Settles O50: KEY leaves an accepting block that holds the expanded key, and ENC reads it there. -/
theorem encAfterKeyUsesTheNewKeys : Obligations.EncAfterKeyUsesTheNewKeys := by
  intro k p s rest ha hl hh
  have hkey := step_key ha hh
  have henc := step_enc_of_holdsKeys (s := loadKeys (keyExpand k) { s with host := .present (encode (.enc p)) :: rest })
    ha hl rfl (holdsKeys_loadKeys _ _) rfl
  exact ⟨_, (core_run_succ hkey).trans (core_run_succ henc), ⟨rfl, rfl, rfl⟩, rfl, rfl, rfl⟩

/-- Settles O52: the guard of a command needs FAULT = 0, the effects left over are `stay` and reset, and reading DOUT does not look
at FAULT. -/
theorem stuckUntilReset : Obligations.StuckUntilReset := by
  intro s hf hs
  exact ⟨exec_of_fault hf, fun _ _ => step_of_present_of_fault hf hs, fun _ => step_frame_of_fault hf hs,
    fun _ => readDout_of_doutValid⟩

end Sys2Proof.Proofs
end

section
/-! PROOFS. Family 30_encoding.md: the command word. A word is its two fields side by side (R37, R38); OP alone says whether it
spells a command and which (R39, R40), and match and mask read that OP. -/

namespace Sys2Proof.Machine

open Sys2Proof.Safety

/-- R37, R38: a word is its OP over its immediate. -/
theorem opField_append_immField (w : CommandWord) : opField w ++ immField w = w :=
  BitVec.extractLsb'_append_extractLsb'

/-- R39, R40: an OP is the reserved one or that of a mnemonic. -/
theorem op_eq_zero_or_opOf (o : BitVec 2) : o = 0b00#2 ∨ ∃ m, o = opOf m := by
  have h : o = 0b00#2 ∨ o = opOf .KEY ∨ o = opOf .ENC ∨ o = opOf .DEC := by
    revert o
    decide
  obtain h | h | h | h := h
  · exact .inl h
  · exact .inr ⟨.KEY, h⟩
  · exact .inr ⟨.ENC, h⟩
  · exact .inr ⟨.DEC, h⟩

/-- R40: the reserved OP spells nothing, whatever the immediate. -/
theorem decode_of_opField_zero {w : CommandWord} (h : opField w = 0b00#2) : decode w = .reserved := by
  simp [decode, h]

/-- R40: only the reserved OP spells nothing. -/
theorem decode_eq_reserved_iff {w : CommandWord} : decode w = .reserved ↔ opField w = 0b00#2 := by
  refine ⟨fun h => ?_, decode_of_opField_zero⟩
  obtain hop | ⟨m, hop⟩ := op_eq_zero_or_opOf (opField w)
  · exact hop
  · cases (decode_of_opField hop).symm.trans h

/-- R45: the word of a mnemonic and an operand. -/
theorem encode_instrOf (m : Mnemonic) (v : Block) : encode (instrOf m v) = opOf m ++ v := by
  cases m <;> rfl

/-- The command of a mnemonic has that mnemonic. -/
@[simp] theorem mnemonicOf_instrOf (m : Mnemonic) (v : Block) : mnemonicOf (instrOf m v) = m := by
  cases m <;> rfl

/-- R39, R45: a command has one word, the one that spells it. -/
theorem decode_eq_command_iff {w : CommandWord} {i : Instr} : decode w = .command i ↔ encode i = w := by
  refine ⟨fun h => ?_, fun h => h ▸ decode_encode i⟩
  obtain hop | ⟨m, hop⟩ := op_eq_zero_or_opOf (opField w)
  · cases (decode_of_opField_zero hop).symm.trans h
  · cases (decode_of_opField hop).symm.trans h
    rw [encode_instrOf, ← hop, opField_append_immField]

/-- R39: a word spells a command of a mnemonic exactly when its OP is that of the mnemonic. -/
theorem opField_eq_opOf_iff {w : CommandWord} {m : Mnemonic} :
    opField w = opOf m ↔ ∃ i, decode w = .command i ∧ mnemonicOf i = m := by
  refine ⟨fun h => ⟨_, decode_of_opField h, mnemonicOf_instrOf _ _⟩, ?_⟩
  rintro ⟨i, hd, rfl⟩
  rw [← decode_eq_command_iff.1 hd]
  exact (Laws.EncodedFields.fields_of_concat _ _).1

/-- R39: the mask keeps the OP and clears the immediate, so a match is a match of the OP. -/
theorem and_opMask_eq_iff {w : CommandWord} {o : BitVec 2} : w &&& 0x30000#18 = o ++ 0#16 ↔ opField w = o := by
  have hmask : w &&& 0x30000#18 = opField w ++ 0#16 := by
    calc w &&& 0x30000#18
        = (opField w ++ immField w) &&& (0b11#2 ++ 0#16) := by rw [opField_append_immField]; rfl
      _ = (opField w &&& BitVec.allOnes 2) ++ (immField w &&& 0#16) := BitVec.and_append
      _ = opField w ++ 0#16 := by rw [BitVec.and_allOnes, BitVec.and_zero]
  rw [hmask, BitVec.append_left_inj]

/-- R39: each row of the table matches by the mask of the OP and the OP of its mnemonic. -/
theorem opcodeTable_row {row : OpcodeRow} (h : row ∈ opcodeTable) :
    row.mask = 0x30000#18 ∧ row.pattern = opOf row.mnemonic ++ 0#16 := by
  have hall : ∀ r ∈ opcodeTable, r.mask = 0x30000#18 ∧ r.pattern = opOf r.mnemonic ++ 0#16 := by decide
  exact hall row h

/-- R38: IMM16 is the low 16 bits. -/
theorem setWidth_eq_immField (w : CommandWord) : w.setWidth 16 = immField w :=
  BitVec.setWidth_eq_extractLsb' (by decide)

/-- R37: OP by weight. -/
theorem opField_toNat (w : CommandWord) : (opField w).toNat = w.toNat / 0x10000 := by
  have hw : w.toNat < 2 ^ 18 := w.isLt
  rw [opField, BitVec.extractLsb'_toNat, Nat.shiftRight_eq_div_pow]
  omega

/-- R40: the reserved words are those below 0x10000. -/
theorem opField_eq_zero_iff {w : CommandWord} : opField w = 0b00#2 ↔ w.toNat < 0x10000 := by
  rw [← BitVec.toNat_inj, opField_toNat]
  simp only [BitVec.toNat_ofNat]
  omega

/-- R92: an accepted reserved word raises IllegalCommand. -/
theorem acceptWord_of_reserved {s : State} {w : CommandWord} (ha : Accepting s) (hd : decode w = .reserved) :
    acceptWord w s = .next (raiseFault .illegalCommand s) := by
  rw [acceptWord, whenAccepting_of_accepting ha.1 ha.2, hd]

/-- R80: the step of an accepting block on a command placed at its port is the command's meaning. -/
theorem step_placeWord_encode {s : State} (ha : Accepting s) (i : Instr) : step (placeWord s (encode i)) = exec i s :=
  step_of_command (s := placeWord s (encode i)) ha rfl (decode_encode i)

/-- Log entry 10: the number of a command's word decodes to the command. -/
theorem decodeTableWord_encode {nbits : Nat} (h : 18 ≤ nbits) (i : Instr) :
    decodeTableWord nbits (encode i).toNat = some i := by
  simp [decodeTableWord, commandWordOf_toNat h]

/-- Log entry 10: a number wider than 18 bits decodes to nothing. -/
theorem decodeTableWord_of_wide {nbits w : Nat} (h : 2 ^ 18 ≤ w % 2 ^ nbits) : decodeTableWord nbits w = none := by
  rw [decodeTableWord, commandWordOf_of_wide h]

/-- Log entry 10: a number wider than 18 bits places nothing. -/
theorem withFetchWord_of_wide {nbits w : Nat} (h : 2 ^ 18 ≤ w % 2 ^ nbits) (s : State) : s.withFetchWord nbits w = s := by
  rw [State.withFetchWord, commandWordOf_of_wide h]

end Sys2Proof.Machine

namespace Sys2Proof.Proofs

open Sys2Proof.Machine Sys2Proof.Safety

/-- Settles O11: a word that decodes is its OP over its immediate, which is the word of the command. -/
theorem decodeAndEncodeAgree : Obligations.DecodeAndEncodeAgree :=
  ⟨fun i _ => decode_encode i, fun _ _ => decode_eq_command_iff.1⟩

/-- Settles O12: the four patterns are the four values of OP. -/
theorem decodeFollowsTheOpcodeTable : Obligations.DecodeFollowsTheOpcodeTable := by
  intro w
  have hdec (m : Mnemonic) (h : w &&& 0x30000#18 = opOf m ++ 0#16) : decode w = .command (instrOf m (w.setWidth 16)) := by
    rw [setWidth_eq_immField]
    exact decode_of_opField (and_opMask_eq_iff.1 h)
  refine ⟨hdec .KEY, hdec .ENC, hdec .DEC, fun h => ?_, fun row hrow => ?_⟩
  · exact decode_of_opField_zero (and_opMask_eq_iff.1 h)
  · obtain ⟨hmask, hpattern⟩ := opcodeTable_row hrow
    rw [hmask, hpattern, and_opMask_eq_iff]
    exact opField_eq_opOf_iff

/-- Settles O14: OP = 0b00 says that the word is below 0x10000, and fault entry writes FAULT and CAUSE only. -/
theorem reservedWordRaisesIllegalCommand : Obligations.ReservedWordRaisesIllegalCommand := by
  have hres (w : CommandWord) : decode w = .reserved ↔ w.toNat < 0x10000 :=
    decode_eq_reserved_iff.trans opField_eq_zero_iff
  refine ⟨hres, fun s w rest hw ha hh => ?_⟩
  rw [step_of_present hh ha.2]
  exact acceptWord_of_reserved (s := { s with host := rest }) ha ((hres w).2 hw)

/-- Settles O13: three words are those of the commands they spell, and the other two have OP = 0b00. -/
theorem exampleWordsDecode : Obligations.ExampleWordsDecode := by
  refine ⟨decode_encode (.key 0x4AF5), decode_encode (.enc 0xD728), decode_encode (.dec 0x24EC), ?_, ?_⟩
  · exact decode_of_opField_zero (by decide)
  · exact decode_of_opField_zero (by decide)

/-- Settles O15: both table widths hold a command word, so its number stands for it. -/
theorem tableWordsDecodeAndRun : Obligations.TableWordsDecodeAndRun := by
  refine ⟨fun i => ⟨?_, ?_, fun s ha => ⟨?_, ?_⟩⟩, fun nbits w s h => ⟨?_, ?_⟩⟩
  · exact decodeTableWord_encode (by decide) i
  · exact decodeTableWord_encode (by decide) i
  · rw [withFetchWord_toNat (by decide), step_placeWord_encode ha]
  · rw [withFetchWord_toNat (by decide), step_placeWord_encode ha]
  · exact decodeTableWord_of_wide h
  · exact withFetchWord_of_wide h s

end Sys2Proof.Proofs
end

section
/-! PROOFS. Family 30_encoding.md: the assembler (R42 to R45). What the host's adapter and the reader of literals answer, and the
parts into which a command's line is split. -/

namespace Sys2Proof.Machine

/-- R99: a value that fits is sent. -/
theorem submit_of_fits {m : Mnemonic} {n : Nat} (h : n ≤ 0xFFFF) :
    submit ⟨m, n⟩ = .ok (encode (instrOf m (BitVec.ofNat 16 n))) := by
  simp [submit, Request.wellFormed, h]

/-- R99: a wider value is refused under the name of its entry. -/
theorem submit_of_wide {m : Mnemonic} {n : Nat} (h : 0xFFFF < n) : submit ⟨m, n⟩ = .error (widthError m) := by
  simp [submit, Request.wellFormed, h]

/-- R42: the characters of a mnemonic are read as that mnemonic. -/
@[simp] theorem readMnemonic_mnemonicText (m : Mnemonic) : readMnemonic (mnemonicText m) = some m := by
  cases m <;> rfl

/-- R42: a line whose immediate is no literal is refused. -/
theorem assembleCommand_of_no_literal {m : Mnemonic} {cs : List Char} (h : readImmediate cs = none) :
    assembleCommand (mnemonicText m) cs = .error .badLiteral := by
  simp [assembleCommand, h]

/-- R43: a line whose immediate is too wide is refused, whatever its number of digits. -/
theorem assembleCommand_of_wide {m : Mnemonic} {cs : List Char} {v : Nat} {fits : Bool}
    (h : readImmediate cs = some (v, fits)) (hv : 0xFFFF < v) :
    assembleCommand (mnemonicText m) cs = .error (.tooWide (widthError m)) := by
  simp [assembleCommand, h, submit_of_wide hv]

/-- R42, R45: a line whose immediate is no wider than 16 bits gives the command's word, unless it has too many digits. -/
theorem assembleCommand_of_fits {m : Mnemonic} {cs : List Char} {v : Nat} {fits : Bool}
    (h : readImmediate cs = some (v, fits)) (hv : v ≤ 0xFFFF) :
    assembleCommand (mnemonicText m) cs =
      if fits then .ok (encode (instrOf m (BitVec.ofNat 16 v))) else .error .badLiteral := by
  simp [assembleCommand, h, submit_of_fits hv]

/-- R43, R45: what an accepted line's immediate was, and the word it became. -/
theorem assembleCommand_eq_ok {m : Mnemonic} {cs : List Char} {w : CommandWord}
    (h : assembleCommand (mnemonicText m) cs = .ok w) :
    ∃ v, v ≤ 0xFFFF ∧ readImmediate cs = some (v, true) ∧ w = opOf m ++ BitVec.ofNat 16 v := by
  cases hr : readImmediate cs with
  | none => cases (assembleCommand_of_no_literal hr).symm.trans h
  | some r =>
    obtain ⟨v, fits⟩ := r
    obtain hv | hv := Nat.lt_or_ge 0xFFFF v
    · cases (assembleCommand_of_wide hr hv).symm.trans h
    · rw [assembleCommand_of_fits hr hv, encode_instrOf] at h
      cases fits with
      | false => cases h
      | true =>
        cases h
        exact ⟨v, hv, rfl, rfl⟩

/-- R42: a character that belongs to a part of a line: it starts no comment and is no white space. -/
def isPartChar (c : Char) : Bool :=
  c != ';' && !isBlank c

theorem isPartChar_iff {c : Char} : isPartChar c = true ↔ c ≠ ';' ∧ isBlank c = false := by
  simp [isPartChar]

/-- R42: text that stands in a line as one part. -/
structure IsPart (part : List Char) : Prop where
  chars : part.all isPartChar = true
  ne_nil : part ≠ []

/-- R42: no comment starts inside a part. -/
theorem dropComment_append_of_chars {part : List Char} (h : part.all isPartChar = true) (rest : List Char) :
    dropComment (part ++ rest) = part ++ dropComment rest := by
  induction part with
  | nil => rfl
  | cons c cs ih =>
    obtain ⟨hc, hcs⟩ := Bool.and_eq_true_iff.1 h
    simp [dropComment, (isPartChar_iff.1 hc).1, ih hcs]

/-- R42: the characters of a part are collected in order. -/
theorem splitParts_append_of_chars {part : List Char} (h : part.all isPartChar = true) (start rest : List Char) :
    splitParts start (part ++ rest) = splitParts (start ++ part) rest := by
  induction part generalizing start with
  | nil => simp
  | cons c cs ih =>
    obtain ⟨hc, hcs⟩ := Bool.and_eq_true_iff.1 h
    simp [splitParts, (isPartChar_iff.1 hc).2, ih hcs]

/-- R42: a part has no comment to drop. -/
theorem IsPart.dropComment_eq {part : List Char} (h : IsPart part) : dropComment part = part := by
  simpa [dropComment] using dropComment_append_of_chars h.chars []

/-- R42: a line that is one part is split into it. -/
theorem IsPart.splitParts_eq {part : List Char} (h : IsPart part) : splitParts [] part = [part] := by
  simpa [splitParts, h.ne_nil] using splitParts_append_of_chars h.chars [] []

/-- R42: a line of two parts with one space between is split into them. -/
theorem assembleLine_of_parts {m v : List Char} (hm : IsPart m) (hv : IsPart v) :
    assembleLine (m ++ ' ' :: v) = (assembleCommand m v).map some := by
  have hcomment : dropComment (m ++ ' ' :: v) = m ++ ' ' :: v := by
    simp [dropComment_append_of_chars hm.chars, dropComment, hv.dropComment_eq]
  have hsplit : splitParts [] (m ++ ' ' :: v) = [m, v] := by
    simp [splitParts_append_of_chars hm.chars, splitParts, isBlank, hm.ne_nil, hv.splitParts_eq]
  rw [assembleLine, hcomment, hsplit]

/-- R42: a hexadecimal digit is a character of a part. -/
@[simp] theorem isPartChar_hexDigit (n : Nibble) : isPartChar (hexDigit n) = true := by
  revert n
  decide

/-- R42: a hexadecimal digit is read as the nibble it was written from. -/
theorem digitValue_hexDigit (n : Nibble) : hexDigit n ≠ '_' ∧ digitValue 16 (hexDigit n) = some n.toNat := by
  revert n
  decide

/-- R42: reading one written hexadecimal digit. -/
@[simp] theorem readDigits_hexDigit (value count : Nat) (afterDigit : Bool) (n : Nibble) (rest : List Char) :
    readDigits 16 value count afterDigit (hexDigit n :: rest) =
      readDigits 16 (value * 16 + n.toNat) (count + 1) true rest := by
  obtain ⟨hne, hval⟩ := digitValue_hexDigit n
  simp [readDigits, hne, hval]

/-- R42: an operand in four hexadecimal digits. -/
def hexLiteral (v : Block) : List Char :=
  ['0', 'x', hexDigit (v.extractLsb' 12 4), hexDigit (v.extractLsb' 8 4), hexDigit (v.extractLsb' 4 4),
    hexDigit (v.extractLsb' 0 4)]

/-- The nibbles of a block by weight. -/
theorem toNat_of_nibbles (v : Block) :
    (((v.extractLsb' 12 4).toNat * 16 + (v.extractLsb' 8 4).toNat) * 16 + (v.extractLsb' 4 4).toNat) * 16 +
      (v.extractLsb' 0 4).toNat = v.toNat := by
  have hv : v.toNat < 2 ^ 16 := v.isLt
  simp only [BitVec.extractLsb'_toNat, Nat.shiftRight_eq_div_pow]
  omega

/-- R42: four hexadecimal digits are read as the operand they were written from. -/
theorem readImmediate_hexLiteral (v : Block) : readImmediate (hexLiteral v) = some (v.toNat, true) := by
  simp only [readImmediate, hexLiteral, readDigits_hexDigit, Nat.zero_mul, Nat.zero_add, toNat_of_nibbles]
  rfl

/-- R42: a command's line is its mnemonic and its operand with a space between. -/
theorem lineOf_eq (i : Instr) : lineOf i = mnemonicText (mnemonicOf i) ++ ' ' :: hexLiteral (operandOf i) :=
  rfl

/-- R42: the characters of a mnemonic are a part. -/
theorem isPart_mnemonicText (m : Mnemonic) : IsPart (mnemonicText m) := by
  cases m <;> exact ⟨rfl, nofun⟩

/-- R42: the characters of a literal are a part. -/
theorem isPart_hexLiteral (v : Block) : IsPart (hexLiteral v) where
  chars := by
    have h0 : isPartChar '0' = true := rfl
    have hx : isPartChar 'x' = true := rfl
    simp [hexLiteral, h0, hx]
  ne_nil := nofun

end Sys2Proof.Machine

namespace Sys2Proof.Proofs

open Sys2Proof.Machine

/-- Settles O17: the adapter checks the width of what was read, and the word has the checked value as its immediate. -/
theorem assemblerNeverTruncates : Obligations.AssemblerNeverTruncates := by
  refine fun m cs => ⟨fun v fits hr hv => ?_, fun w h => ?_⟩
  · rw [assembleCommand_of_wide hr hv]
    cases m <;> rfl
  · obtain ⟨v, hv, hr, rfl⟩ := assembleCommand_eq_ok h
    obtain ⟨hop, himm⟩ := Laws.EncodedFields.fields_of_concat (opOf m) (BitVec.ofNat 16 v)
    refine ⟨v, hv, hr, hop, ?_⟩
    rw [himm, BitVec.toNat_ofNat]
    omega

/-- Settles O18: the line is split into mnemonic and literal, which are read as the command's mnemonic and operand. -/
theorem assemblerReadsEveryCommand : Obligations.AssemblerReadsEveryCommand := by
  intro i
  have hfits : (operandOf i).toNat ≤ 0xFFFF := Nat.le_of_lt_succ (operandOf i).isLt
  rw [lineOf_eq, assembleLine_of_parts (isPart_mnemonicText _) (isPart_hexLiteral _),
    assembleCommand_of_fits (readImmediate_hexLiteral _) hfits, BitVec.ofNat_toNat, BitVec.setWidth_eq, instrOf_mnemonicOf]
  rfl

end Sys2Proof.Proofs
end

section
/-! PROOFS. Family 41_block_converter.md. Both directions of the converter by weight of the bits (R47, R48), from which they are
inverse (R49). -/

namespace Sys2Proof.Machine

/-- The nibble that starts at bit i, by weight. -/
theorem extract_nibble_toNat (n : Block) (i : Nat) : (n.extractLsb' i 4).toNat = n.toNat / 2 ^ i % 16 := by
  rw [BitVec.extractLsb'_toNat, Nat.shiftRight_eq_div_pow]

/-- R47: the four positions of ToState by weight. -/
theorem toState_toNat (n : Block) :
    (toState n).n0.toNat = n.toNat / 4096 ∧ (toState n).n2.toNat = n.toNat / 256 % 16 ∧
    (toState n).n1.toNat = n.toNat / 16 % 16 ∧ (toState n).n3.toNat = n.toNat % 16 := by
  have hn : n.toNat < 2 ^ 16 := n.isLt
  have h0 : (toState n).n0.toNat = n.toNat / 2 ^ 12 % 16 := extract_nibble_toNat n 12
  have h3 : (toState n).n3.toNat = n.toNat / 2 ^ 0 % 16 := extract_nibble_toNat n 0
  refine ⟨?_, extract_nibble_toNat n 8, extract_nibble_toNat n 4, ?_⟩
  · omega
  · omega

/-- A nibble appended below a value adds to sixteen times the value. -/
theorem toNat_append_nibble {w : Nat} (x : BitVec w) (d : Nibble) : (x ++ d).toNat = x.toNat * 16 + d.toNat := by
  rw [BitVec.toNat_append, ← Nat.shiftLeft_add_eq_or_of_lt d.isLt, Nat.shiftLeft_eq]

/-- R48: ToBlock by weight. -/
theorem toBlock_toNat (s : Nibbles) :
    (toBlock s).toNat = s.n0.toNat * 4096 + s.n2.toNat * 256 + s.n1.toNat * 16 + s.n3.toNat := by
  simp only [toBlock, toNat_append_nibble]
  omega

/-- R49: a block is the weighted sum of the nibbles it is split into. -/
@[simp] theorem toBlock_toState (n : Block) : toBlock (toState n) = n := by
  obtain ⟨h0, h2, h1, h3⟩ := toState_toNat n
  apply BitVec.eq_of_toNat_eq
  rw [toBlock_toNat, h0, h2, h1, h3]
  omega

/-- States whose positions have equal numbers are equal. -/
theorem nibbles_eq_of_toNat_eq {s t : Nibbles} (h0 : s.n0.toNat = t.n0.toNat) (h1 : s.n1.toNat = t.n1.toNat)
    (h2 : s.n2.toNat = t.n2.toNat) (h3 : s.n3.toNat = t.n3.toNat) : s = t :=
  (Nibbles.mk.injEq ..).mpr ⟨BitVec.eq_of_toNat_eq h0, BitVec.eq_of_toNat_eq h1, BitVec.eq_of_toNat_eq h2,
    BitVec.eq_of_toNat_eq h3⟩

/-- R49: each nibble is the digit of its weight, because the nibbles below it do not carry into it. -/
@[simp] theorem toState_toBlock (s : Nibbles) : toState (toBlock s) = s := by
  obtain ⟨h0, h2, h1, h3⟩ := toState_toNat (toBlock s)
  rw [toBlock_toNat] at h0 h2 h1 h3
  have b1 : s.n1.toNat < 16 := s.n1.isLt
  have b2 : s.n2.toNat < 16 := s.n2.isLt
  have b3 : s.n3.toNat < 16 := s.n3.isLt
  apply nibbles_eq_of_toNat_eq <;> omega

end Sys2Proof.Machine

namespace Sys2Proof.Proofs

open Sys2Proof.Machine

/-- Settles O21: each direction is a two-sided inverse of the other. -/
theorem converterIsBijective : Obligations.ConverterIsBijective := by
  refine ⟨toBlock_toState, toState_toBlock, ?_, ?_⟩
  · exact Function.bijective_iff_has_inverse.2 ⟨toBlock, toBlock_toState, toState_toBlock⟩
  · exact Function.bijective_iff_has_inverse.2 ⟨toState, toState_toBlock, toBlock_toState⟩

/-- Settles O19, by the weights of the four positions; the examples are computed. -/
theorem toStateCrossesPositions : Obligations.ToStateCrossesPositions :=
  ⟨toState_toNat, by decide, by decide⟩

/-- Settles O20, by the weights of the four nibbles; the examples are computed. -/
theorem toBlockCrossesPositions : Obligations.ToBlockCrossesPositions :=
  ⟨toBlock_toNat, by decide, by decide⟩

end Sys2Proof.Proofs
end

section
/-! PROOFS. Family 42_key_schedule.md. A word by its two nibbles and a key by its two bytes (R27, R51); of the six words of the
expansion the first two are the key again (R55, R61). -/

namespace Sys2Proof.Machine

open Sys2Proof.Safety

/-- R27: the high nibble of two nibbles side by side. -/
@[simp] theorem highNibble_append (hi lo : Nibble) : highNibble (hi ++ lo) = hi :=
  BitVec.extractLsb'_append_eq_left

/-- R27: the low nibble of two nibbles side by side. -/
@[simp] theorem lowNibble_append (hi lo : Nibble) : lowNibble (hi ++ lo) = lo :=
  BitVec.extractLsb'_append_eq_right

/-- R27: a word is its two nibbles side by side. -/
@[simp] theorem highNibble_append_lowNibble (w : Word) : highNibble w ++ lowNibble w = w :=
  BitVec.extractLsb'_append_extractLsb'

/-- R51: a key is its two bytes side by side. -/
@[simp] theorem highByte_append_lowByte (k : Block) : highByte k ++ lowByte k = k :=
  BitVec.extractLsb'_append_extractLsb'

/-- R27: words with the same nibbles are equal. -/
theorem word_eq_of_nibbles_eq {v w : Word} (hhi : highNibble v = highNibble w) (hlo : lowNibble v = lowNibble w) : v = w := by
  rw [← highNibble_append_lowNibble v, hhi, hlo, highNibble_append_lowNibble]

/-- R27: the high nibble by weight. -/
theorem highNibble_toNat (w : Word) : (highNibble w).toNat = w.toNat / 16 := by
  have hw : w.toNat < 2 ^ 8 := w.isLt
  rw [highNibble, BitVec.extractLsb'_toNat, Nat.shiftRight_eq_div_pow]
  omega

/-- R27: the low nibble by weight. -/
theorem lowNibble_toNat (w : Word) : (lowNibble w).toNat = w.toNat % 16 :=
  BitVec.extractLsb'_toNat ..

/-- R51: the high byte by weight. -/
theorem highByte_toNat (k : Block) : (highByte k).toNat = k.toNat / 256 := by
  have hk : k.toNat < 2 ^ 16 := k.isLt
  rw [highByte, BitVec.extractLsb'_toNat, Nat.shiftRight_eq_div_pow]
  omega

/-- R51: the low byte by weight. -/
theorem lowByte_toNat (k : Block) : (lowByte k).toNat = k.toNat % 256 :=
  BitVec.extractLsb'_toNat ..

/-! R52: RotWord. -/

@[simp] theorem highNibble_rotWord (w : Word) : highNibble (rotWord w) = lowNibble w :=
  highNibble_append _ _

@[simp] theorem lowNibble_rotWord (w : Word) : lowNibble (rotWord w) = highNibble w :=
  lowNibble_append _ _

theorem rotWord_toNat (w : Word) : (rotWord w).toNat = w.toNat % 16 * 16 + w.toNat / 16 := by
  rw [rotWord, toNat_append_nibble, lowNibble_toNat, highNibble_toNat]

@[simp] theorem rotWord_rotWord (w : Word) : rotWord (rotWord w) = w := by
  apply word_eq_of_nibbles_eq <;> simp

theorem rotWord_eq_self_iff {w : Word} : rotWord w = w ↔ highNibble w = lowNibble w := by
  refine ⟨fun h => ?_, fun h => ?_⟩
  · rw [← lowNibble_rotWord, h]
  · apply word_eq_of_nibbles_eq <;> simp [h]

/-- In the rotation to the left each nibble comes to stand where the other was. -/
theorem rotWord_eq_rotateLeft (w : Word) : rotWord w = w.rotateLeft 4 := by
  refine BitVec.eq_of_getLsbD_eq fun i hi => ?_
  simp only [rotWord, lowNibble, highNibble, BitVec.getLsbD_append, BitVec.getLsbD_extractLsb', BitVec.getLsbD_rotateLeft]
  by_cases h : i < 4
  · simp [h]
  · have hlt : i - 4 < 4 := by omega
    simp [h, hi, hlt]

/-- Half of eight bits is the same rotation in either direction. -/
theorem rotateLeft_four_eq_rotateRight (w : Word) : w.rotateLeft 4 = w.rotateRight 4 :=
  BitVec.or_comm ..

/-! R53: SubWord. -/

@[simp] theorem highNibble_subWord (w : Word) : highNibble (subWord w) = sbox (highNibble w) :=
  highNibble_append _ _

@[simp] theorem lowNibble_subWord (w : Word) : lowNibble (subWord w) = sbox (lowNibble w) :=
  lowNibble_append _ _

/-- R53, R62: the one entry of the table that stands at its own index. -/
theorem sbox_eq_self_iff (n : Nibble) : sbox n = n ↔ n = 0xC := by
  revert n
  decide

/-! R54: the bits that are set in the round constants. -/

theorem rc1_getLsbD (i : Fin 8) : rc1.getLsbD i = decide (i = 7) := by
  revert i
  decide

theorem rc2_getLsbD (i : Fin 8) : rc2.getLsbD i = decide (i = 5 ∨ i = 4) := by
  revert i
  decide

/-! R59 to R61: the expanded key and the registers that hold it. -/

/-- R61: the words w0 and w1 are the key's own bytes. -/
theorem keyExpand_pre (k : Block) : (keyExpand k).pre = toState k :=
  congrArg toState (highByte_append_lowByte k)

/-- R61: the key is read back from the pre-round key. -/
@[simp] theorem toBlock_keyExpand_pre (k : Block) : toBlock (keyExpand k).pre = k := by
  rw [keyExpand_pre, toBlock_toState]

/-- R61: so reading the pre-round key as a block undoes the expansion. -/
theorem leftInverse_keyExpand : Function.LeftInverse (fun rk => toBlock rk.pre) keyExpand :=
  toBlock_keyExpand_pre

/-- R60: later round keys replace all of the earlier ones. -/
@[simp] theorem loadKeys_loadKeys (rk rk' : RoundKeys) (s : State) : loadKeys rk' (loadKeys rk s) = loadKeys rk' s :=
  rfl

/-- R60: after a KEY a block takes the next KEY as it would have before. -/
theorem exec_key_loadKeys {s : State} (ha : Accepting s) (rk : RoundKeys) (k : Block) :
    exec (.key k) (loadKeys rk s) = exec (.key k) s := by
  rw [exec_key_of_accepting ha, exec_key_of_accepting (s := loadKeys rk s) ha, loadKeys_loadKeys]

end Sys2Proof.Machine

namespace Sys2Proof.Proofs

open Sys2Proof.Machine Sys2Proof.Safety

/-- Settles O26: the pre-round key gives the key back, so it is a left inverse of the expansion. -/
theorem keyScheduleLaws : Obligations.KeyScheduleLaws :=
  ⟨toBlock_keyExpand_pre, leftInverse_keyExpand.injective⟩

/-- Settles O22, by the nibbles of the rotated word; the examples are computed. -/
theorem rotWordSwapsNibbles : Obligations.RotWordSwapsNibbles := by
  refine ⟨fun w => ⟨rotWord_toNat w, rotWord_rotWord w, rotWord_eq_self_iff, rotWord_eq_rotateLeft w, ?_⟩,
    by decide, by decide⟩
  rw [rotWord_eq_rotateLeft, rotateLeft_four_eq_rotateRight]

/-- Settles O23, by the nibbles of the substituted word; the examples are computed. -/
theorem subWordUsesTheForwardBox : Obligations.SubWordUsesTheForwardBox :=
  ⟨fun w => ⟨highNibble_subWord w, lowNibble_subWord w⟩, sbox_eq_self_iff, by decide⟩

/-- Settles O24: a constant flips the bits that are set in it. -/
theorem roundConstantsFlipHighBits : Obligations.RoundConstantsFlipHighBits := by
  refine ⟨rfl, rfl, fun w i => ⟨?_, ?_⟩⟩
  · rw [BitVec.getLsbD_xor, rc1_getLsbD]
  · rw [BitVec.getLsbD_xor, rc2_getLsbD]

/-- Settles O25: the key's bytes are the first two words, and each later word is given by its equation; the examples are
computed. -/
theorem keyExpansionRecurrence : Obligations.KeyExpansionRecurrence := by
  refine ⟨fun k => ?_, by decide, by decide, by decide⟩
  exact ⟨highByte k, lowByte k, _, _, _, _, highByte_toNat k, lowByte_toNat k, highByte_append_lowByte k,
    rfl, rfl, rfl, rfl, rfl⟩

/-- Settles O27: the next state is the old one with the round keys and KEY_VALID written, which still accepts. -/
theorem keyLoadsTheRoundKeys : Obligations.KeyLoadsTheRoundKeys := by
  refine ⟨fun k s ha => ?_, ?_⟩
  · have hkey := exec_key_of_accepting ha k
    exact ⟨_, hkey, holdsKeys_loadKeys _ _, rfl, rfl, rfl, ha.2, rfl, rfl, (exec_key_loadKeys ha _ k).trans hkey,
      exec_key_loadKeys ha _⟩
  · obtain ⟨-, hexp, -⟩ := keyExpansionRecurrence
    refine ⟨_, exec_key_of_accepting ⟨rfl, rfl⟩ _, ?_⟩
    rw [hexp]
    exact ⟨rfl, rfl, rfl, by decide⟩

end Sys2Proof.Proofs
end

section
/-! PROOFS. Family 43_substitution_gf.md. Substitution is by lane, so its laws are those of the boxes (R65 to R67). A natural stands
for the polynomial over GF(2) whose coefficients are its bits, and every iteration of the multiplier keeps a(x)·b(x) + p(x) modulo
x^4 + x + 1 (R71). So GFMul is the product of the quotient ring, and a nibble is known by its class there, which gives the field
laws (R72). -/

namespace Sys2Proof.Machine

/-! R62 to R67: the boxes and the substitution of a State. -/

/-- R64: the inverse box undoes the forward box. -/
@[simp] theorem sboxI_sbox (n : Nibble) : sboxI (sbox n) = n := by
  revert n
  decide

/-- R64: the forward box undoes the inverse box. -/
@[simp] theorem sbox_sboxI (n : Nibble) : sbox (sboxI n) = n := by
  revert n
  decide

/-- R65, R66: a position of the result is the box's entry for the same position. -/
@[simp] theorem lane_subNibbles (box : Nibble → Nibble) (s : Nibbles) (i : Fin 4) :
    lane (subNibbles box s) i = box (lane s i) :=
  match i with
  | 0 | 1 | 2 | 3 => rfl

/-- R67: a box undone by another is undone in every position. -/
theorem leftInverse_subNibbles {box box' : Nibble → Nibble} (h : Function.LeftInverse box box') :
    Function.LeftInverse (subNibbles box) (subNibbles box') := fun s => by
  simp only [subNibbles, h _]

/-- R67: substitution of a State whose positions are permuted. -/
theorem lane_subNibbles_of_permuted (box : Nibble → Nibble) {σ : Equiv.Perm (Fin 4)} {s s' : Nibbles}
    (h : ∀ i, lane s' i = lane s (σ i)) (i : Fin 4) :
    lane (subNibbles box s') i = lane (subNibbles box s) (σ i) := by
  rw [lane_subNibbles, lane_subNibbles, h]

/-- R67: ShiftRows is one of the permutations. -/
theorem subNibbles_sr (box : Nibble → Nibble) (s : Nibbles) : subNibbles box (sr s) = sr (subNibbles box s) :=
  rfl

/-! R71: the loop of the multiplier. -/

theorem gfDouble_lt {a : Nat} (ha : a < 16) : gfDouble a < 16 := by
  revert a
  decide

/-- R71: one iteration. -/
theorem gfLoop_succ_of_ne_zero {a b : Nat} (ha : a ≠ 0) (hb : b ≠ 0) (fuel p : Nat) :
    gfLoop (fuel + 1) a b p = gfLoop fuel (gfDouble a) (b >>> 1) (if b &&& 1 = 1 then p ^^^ a else p) :=
  if_pos ⟨ha, hb⟩

/-- R71: the loop is not entered when the first operand is 0. -/
@[simp] theorem gfLoop_zero_left (fuel b p : Nat) : gfLoop fuel 0 b p = p := by
  cases fuel with
  | zero => rfl
  | succ fuel => exact if_neg fun h => h.1 rfl

/-- R71: the loop is not entered when the second operand is 0. -/
@[simp] theorem gfLoop_zero_right (fuel a p : Nat) : gfLoop fuel a 0 p = p := by
  cases fuel with
  | zero => rfl
  | succ fuel => exact if_neg fun h => h.2 rfl

/-- R71: the second operand loses one bit per iteration. -/
theorem shiftRight_one_lt_two_pow {b n : Nat} (hb : b < 2 ^ (n + 1)) : b >>> 1 < 2 ^ n := by
  rw [Nat.shiftRight_one]
  omega

/-- R71: as many iterations as the second operand has bits are enough. -/
theorem gfLoop_add_fuel {fuel b : Nat} (hb : b < 2 ^ fuel) (a p extra : Nat) :
    gfLoop (fuel + extra) a b p = gfLoop fuel a b p := by
  induction fuel generalizing a b p with
  | zero => rw [Nat.lt_one_iff.mp hb, gfLoop_zero_right, gfLoop_zero_right]
  | succ fuel ih =>
    rcases eq_or_ne a 0 with rfl | ha
    · rw [gfLoop_zero_left, gfLoop_zero_left]
    rcases eq_or_ne b 0 with rfl | hb0
    · rw [gfLoop_zero_right, gfLoop_zero_right]
    · rw [Nat.add_right_comm, gfLoop_succ_of_ne_zero ha hb0, gfLoop_succ_of_ne_zero ha hb0,
        ih (shiftRight_one_lt_two_pow hb)]

/-- R71: the product stays a nibble. -/
theorem gfLoop_lt {a p : Nat} (ha : a < 16) (hp : p < 16) (fuel b : Nat) : gfLoop fuel a b p < 16 := by
  induction fuel generalizing a b p with
  | zero => exact hp
  | succ fuel ih =>
    rcases eq_or_ne a 0 with rfl | ha0
    · rwa [gfLoop_zero_left]
    rcases eq_or_ne b 0 with rfl | hb0
    · rwa [gfLoop_zero_right]
    · rw [gfLoop_succ_of_ne_zero ha0 hb0]
      refine ih (gfDouble_lt ha) ?_ _
      split
      · exact Nat.xor_lt_two_pow (n := 4) hp ha
      · exact hp

/-- R70, R71: the masks change nothing, and neither does the return to four bits. -/
theorem gfMul_toNat (a b : Nibble) : (gfMul a b).toNat = gfLoop 4 a.toNat b.toNat 0 := by
  have mask (n : Nibble) : n.toNat &&& 0xF = n.toNat := by
    rw [Nat.and_two_pow_sub_one_of_lt_two_pow (n := 4) n.isLt]
  rw [gfMul, mask, mask, BitVec.toNat_ofNat, Nat.mod_eq_of_lt (gfLoop_lt a.isLt (by decide) _ _)]

@[simp] theorem gfMul_zero_left (b : Nibble) : gfMul 0#4 b = 0#4 :=
  BitVec.eq_of_toNat_eq (by rw [gfMul_toNat]; exact gfLoop_zero_left _ _ _)

@[simp] theorem gfMul_zero_right (a : Nibble) : gfMul a 0#4 = 0#4 :=
  BitVec.eq_of_toNat_eq (by rw [gfMul_toNat]; exact gfLoop_zero_right _ _ _)

/-! R68: the polynomial over GF(2) that a natural stands for. -/

section BitPolynomials

open Polynomial

/-- R68: bit i is the coefficient of x^i. -/
noncomputable def bitPoly (n : Nat) : (ZMod 2)[X] :=
  ∑ i ∈ n.bitIndices.toFinset, X ^ i

theorem coeff_bitPoly (n i : Nat) : (bitPoly n).coeff i = if n.testBit i then 1 else 0 := by
  simp [bitPoly, coeff_X_pow]

@[simp] theorem bitPoly_zero : bitPoly 0 = 0 := by
  simp [bitPoly]

theorem bitPoly_injective : Function.Injective bitPoly := fun m n h => by
  refine Nat.eq_of_testBit_eq fun i => ?_
  have hi := congrArg (coeff · i) h
  simp only [coeff_bitPoly] at hi
  revert hi
  cases m.testBit i <;> cases n.testBit i <;> decide

/-- XOR adds the coefficients. -/
theorem bitPoly_xor (m n : Nat) : bitPoly (m ^^^ n) = bitPoly m + bitPoly n := by
  ext i
  rw [coeff_add, coeff_bitPoly, coeff_bitPoly, coeff_bitPoly, Nat.testBit_xor]
  cases m.testBit i <;> cases n.testBit i <;> decide

/-- A shift to the left multiplies by x. -/
theorem bitPoly_shiftLeft_one (n : Nat) : bitPoly (n <<< 1) = X * bitPoly n := by
  ext i
  cases i with
  | zero => simp [coeff_bitPoly]
  | succ i => simp [coeff_bitPoly, coeff_X_mul]

/-- A shift to the right drops the constant coefficient and divides by x. -/
theorem bitPoly_eq_shiftRight_one (n : Nat) :
    bitPoly n = X * bitPoly (n >>> 1) + if n &&& 1 = 1 then 1 else 0 := by
  ext i
  rw [coeff_add, apply_ite (coeff · i), coeff_zero, coeff_one, coeff_bitPoly]
  cases i with
  | zero => simp [Nat.testBit_zero, Nat.and_one_is_mod]
  | succ i => simp [coeff_bitPoly, coeff_X_mul, Nat.testBit_shiftRight, Nat.add_comm]

/-- R68: the pattern 0b10011. -/
theorem bitPoly_fieldPolynomial : bitPoly fieldPolynomial = X ^ 4 + X + 1 := by
  have hbits : fieldPolynomial.bitIndices.toFinset = {4, 1, 0} := Finset.toFinset_bitIndices_sum_two_pow {4, 1, 0}
  simp [bitPoly, hbits, add_assoc]

theorem monic_bitPoly_fieldPolynomial : (bitPoly fieldPolynomial).Monic := by
  rw [bitPoly_fieldPolynomial]
  monicity!

theorem degree_bitPoly_fieldPolynomial : (bitPoly fieldPolynomial).degree = 4 := by
  rw [bitPoly_fieldPolynomial]
  compute_degree!

theorem degree_bitPoly_lt {n w : Nat} (hn : n < 2 ^ w) : (bitPoly n).degree < w := by
  rw [degree_lt_iff_coeff_zero]
  intro i hi
  rw [coeff_bitPoly, Nat.testBit_lt_two_pow (hn.trans_le (Nat.pow_le_pow_right two_pos hi)), if_neg Bool.false_ne_true]

/-- The polynomial of a nibble, coefficient by coefficient. -/
theorem bitPoly_toNat (n : Nibble) :
    bitPoly n.toNat = ∑ i : Fin 4, if n.getLsbD i then X ^ i.val else 0 := by
  have hsub : n.toNat.bitIndices.toFinset = (Finset.range 4).filter (n.toNat.testBit ·) := by
    ext i
    rw [List.mem_toFinset, Nat.mem_bitIndices, Finset.mem_filter, Finset.mem_range]
    exact ⟨fun hi => ⟨BitVec.lt_of_getLsbD hi, hi⟩, fun hi => hi.2⟩
  rw [bitPoly, hsub, Finset.sum_filter, Finset.sum_range]
  rfl

/-! R72: the class of a nibble modulo x^4 + x + 1. -/

/-- The class, modulo the field polynomial, of the polynomial that a natural stands for. -/
noncomputable def fieldClass (n : Nat) : AdjoinRoot (bitPoly fieldPolynomial) :=
  AdjoinRoot.mk _ (bitPoly n)

@[simp] theorem fieldClass_zero : fieldClass 0 = 0 := by
  rw [fieldClass, bitPoly_zero, map_zero]

theorem fieldClass_xor (m n : Nat) : fieldClass (m ^^^ n) = fieldClass m + fieldClass n := by
  rw [fieldClass, bitPoly_xor, map_add, fieldClass, fieldClass]

/-- The reduction adds a multiple of the modulus, so gfDouble multiplies by x. -/
theorem fieldClass_gfDouble (a : Nat) : fieldClass (gfDouble a) = AdjoinRoot.root _ * fieldClass a := by
  have hshift : fieldClass (a <<< 1) = AdjoinRoot.root _ * fieldClass a := by
    rw [fieldClass, bitPoly_shiftLeft_one, map_mul, AdjoinRoot.mk_X, fieldClass]
  have hpoly : fieldClass fieldPolynomial = 0 := by
    rw [fieldClass, AdjoinRoot.mk_self]
  simp only [gfDouble]
  split
  · rw [fieldClass_xor, hpoly, add_zero, hshift]
  · exact hshift

theorem fieldClass_eq_shiftRight_one (b : Nat) :
    fieldClass b = AdjoinRoot.root _ * fieldClass (b >>> 1) + if b &&& 1 = 1 then 1 else 0 := by
  rw [fieldClass, bitPoly_eq_shiftRight_one b, map_add, map_mul, AdjoinRoot.mk_X, apply_ite (AdjoinRoot.mk _), map_one, map_zero,
    fieldClass]

/-- R71, R72: every iteration keeps a(x)·b(x) + p(x) modulo x^4 + x + 1. -/
theorem fieldClass_gfLoop {fuel b : Nat} (hb : b < 2 ^ fuel) (a p : Nat) :
    fieldClass (gfLoop fuel a b p) = fieldClass a * fieldClass b + fieldClass p := by
  induction fuel generalizing a b p with
  | zero => rw [Nat.lt_one_iff.mp hb, gfLoop_zero_right, fieldClass_zero, mul_zero, zero_add]
  | succ fuel ih =>
    rcases eq_or_ne a 0 with rfl | ha
    · rw [gfLoop_zero_left, fieldClass_zero, zero_mul, zero_add]
    rcases eq_or_ne b 0 with rfl | hb0
    · rw [gfLoop_zero_right, fieldClass_zero, mul_zero, zero_add]
    · rw [gfLoop_succ_of_ne_zero ha hb0, ih (shiftRight_one_lt_two_pow hb), fieldClass_gfDouble, fieldClass_eq_shiftRight_one b]
      split
      · rw [fieldClass_xor]
        ring
      · ring

/-- R72: GFMul is the product of the classes. -/
theorem fieldClass_gfMul (a b : Nibble) :
    fieldClass (gfMul a b).toNat = fieldClass a.toNat * fieldClass b.toNat := by
  rw [gfMul_toNat, fieldClass_gfLoop b.isLt, fieldClass_zero, add_zero]

/-- R72: two nibbles of one class differ by a multiple of the modulus of lower degree, which is 0. -/
theorem nibble_eq_of_fieldClass_eq {a b : Nibble} (h : fieldClass a.toNat = fieldClass b.toNat) : a = b := by
  have hdvd : bitPoly fieldPolynomial ∣ bitPoly a.toNat - bitPoly b.toNat := AdjoinRoot.mk_eq_mk.mp h
  have hlt : (bitPoly a.toNat - bitPoly b.toNat).degree < (bitPoly fieldPolynomial).degree := by
    rw [degree_bitPoly_fieldPolynomial]
    exact (degree_sub_le _ _).trans_lt (max_lt (degree_bitPoly_lt a.isLt) (degree_bitPoly_lt b.isLt))
  have hzero : bitPoly a.toNat - bitPoly b.toNat = 0 :=
    by_contra fun hne => monic_bitPoly_fieldPolynomial.not_dvd_of_degree_lt hne hlt hdvd
  exact BitVec.eq_of_toNat_eq (bitPoly_injective (sub_eq_zero.mp hzero))

end BitPolynomials

/-! R72: the field laws. -/

theorem gfMul_comm (a b : Nibble) : gfMul a b = gfMul b a :=
  nibble_eq_of_fieldClass_eq (by rw [fieldClass_gfMul, fieldClass_gfMul, mul_comm])

theorem gfMul_assoc (a b c : Nibble) : gfMul a (gfMul b c) = gfMul (gfMul a b) c :=
  nibble_eq_of_fieldClass_eq (by simp only [fieldClass_gfMul, mul_assoc])

theorem gfMul_xor (a b c : Nibble) : gfMul a (b ^^^ c) = gfMul a b ^^^ gfMul a c :=
  nibble_eq_of_fieldClass_eq (by simp only [fieldClass_gfMul, fieldClass_xor, BitVec.toNat_xor, mul_add])

@[simp] theorem gfMul_one_left (b : Nibble) : gfMul 1#4 b = b := by
  revert b
  decide

theorem exists_gfMul_eq_one {a : Nibble} (ha : a ≠ 0#4) : ∃ b : Nibble, gfMul a b = 1#4 := by
  revert a
  decide

/-- R72: an inverse is unique, because the product is associative and commutative. -/
theorem gfMul_inverse_unique {a b c : Nibble} (hb : gfMul a b = 1#4) (hc : gfMul a c = 1#4) : b = c :=
  calc
    b = gfMul (gfMul a c) b := by rw [hc, gfMul_one_left]
    _ = gfMul c (gfMul a b) := by rw [gfMul_comm a c, gfMul_assoc]
    _ = c := by rw [hb, gfMul_comm, gfMul_one_left]

end Sys2Proof.Machine

namespace Sys2Proof.Proofs

open Sys2Proof.Machine

/-- Settles O30: both substitutions are by lane, so the boxes' inverse laws hold in every position and a permutation of the
positions passes through; the examples are computed. -/
theorem substitutionLaws : Obligations.SubstitutionLaws := by
  refine ⟨fun s i => ⟨lane_subNibbles .., lane_subNibbles ..⟩, fun s => ⟨?_, ?_⟩, fun σ s s' h i => ⟨?_, ?_⟩,
    fun s => ⟨subNibbles_sr .., subNibbles_sr ..⟩, by decide⟩
  · exact leftInverse_subNibbles sboxI_sbox s
  · exact leftInverse_subNibbles sbox_sboxI s
  · exact lane_subNibbles_of_permuted sbox h i
  · exact lane_subNibbles_of_permuted sboxI h i

/-- Settles O31: four iterations use up the second operand, and one iteration keeps both bounds. -/
theorem multiplierLoopStopsInFour : Obligations.MultiplierLoopStopsInFour := by
  refine ⟨fun a b fuel hfuel => ?_, fun a => gfDouble_lt, fun fuel a b p ha hp => gfLoop_lt ha hp fuel b,
    fun b => ⟨gfMul_zero_left b, gfMul_zero_right b⟩⟩
  obtain ⟨extra, rfl⟩ := Nat.exists_eq_add_of_le hfuel
  exact gfLoop_add_fuel b.isLt _ _ _

/-- Settles O32: GFMul is the product in the quotient ring, where classes are equal when the modulus divides the difference. -/
theorem multiplierIsTheFieldProduct : Obligations.MultiplierIsTheFieldProduct := by
  intro a b
  simp only [← bitPoly_toNat, ← bitPoly_fieldPolynomial]
  refine AdjoinRoot.mk_eq_mk.mp ?_
  rw [map_mul]
  exact (fieldClass_gfMul a b).symm

/-- Settles O28: the tables are read entry by entry. -/
theorem substitutionTables : Obligations.SubstitutionTables :=
  ⟨by decide, by decide⟩

/-- Settles O29, by the inverse laws of the boxes. -/
theorem tablesAreMutuallyInverse : Obligations.TablesAreMutuallyInverse :=
  fun n => ⟨sboxI_sbox n, sbox_sboxI n⟩

/-- Settles O33, by the laws of the quotient ring; the inverses are found in the table and the values are computed. -/
theorem multiplierLaws : Obligations.MultiplierLaws := by
  refine ⟨gfMul_comm, gfMul_assoc, gfMul_xor, fun b => ⟨gfMul_one_left b, gfMul_zero_left b⟩, fun a ha => ?_, by decide⟩
  obtain ⟨b, hb⟩ := exists_gfMul_eq_one ha
  exact ⟨b, hb, fun c hc => gfMul_inverse_unique hc hb⟩

/-- Settles O34: the products are computed entry by entry. -/
theorem constantMultiplierTables : Obligations.ConstantMultiplierTables :=
  ⟨by decide, by decide, by decide⟩

end Sys2Proof.Proofs
end

section
/-! PROOFS. Family 44_state_transforms.md. A State is known by its lanes (R79), so ARK and SR are settled lane by lane. MC and IMC
multiply every column, the positions i and i + 2, by a symmetric matrix (R76, R77). The product of two such matrices is one again,
and those of MC and IMC multiply to the unit matrix (R78). -/

namespace Sys2Proof.Machine

/-- R79: a State is its four lanes. -/
theorem nibbles_eq_of_lane_eq {s t : Nibbles} (h : ∀ i, lane s i = lane t i) : s = t :=
  (Nibbles.mk.injEq ..).mpr ⟨h 0, h 1, h 2, h 3⟩

/-! R74: ARK. -/

@[simp] theorem lane_ark (k s : Nibbles) (i : Fin 4) : lane (ark k s) i = lane k i ^^^ lane s i :=
  match i with
  | 0 | 1 | 2 | 3 => rfl

theorem ark_comm (k s : Nibbles) : ark k s = ark s k :=
  nibbles_eq_of_lane_eq fun i => by rw [lane_ark, lane_ark, BitVec.xor_comm]

@[simp] theorem ark_self (k : Nibbles) : ark k k = ⟨0, 0, 0, 0⟩ := by
  simp [ark]

@[simp] theorem ark_ark (k s : Nibbles) : ark k (ark k s) = s :=
  nibbles_eq_of_lane_eq fun i => by rw [lane_ark, lane_ark, ← BitVec.xor_assoc, BitVec.xor_self, BitVec.zero_xor]

/-! R75: SR. -/

@[simp] theorem sr_sr (s : Nibbles) : sr (sr s) = s :=
  rfl

theorem sr_eq_self_of_lane_eq {s : Nibbles} (h : lane s 2 = lane s 3) : sr s = s :=
  nibbles_eq_of_lane_eq fun
    | 0 | 1 => rfl
    | 2 => h.symm
    | 3 => h

/-! R76 to R78: the column mixes. -/

theorem xor_gfMul (a b c : Nibble) : gfMul (a ^^^ b) c = gfMul a c ^^^ gfMul b c := by
  simp only [gfMul_comm _ c, gfMul_xor]

/-- The matrix with a on the diagonal and b off it, times each of the columns (0, 2) and (1, 3). -/
def mixColumns (a b : Nibble) (s : Nibbles) : Nibbles where
  n0 := gfMul a s.n0 ^^^ gfMul b s.n2
  n1 := gfMul a s.n1 ^^^ gfMul b s.n3
  n2 := gfMul a s.n2 ^^^ gfMul b s.n0
  n3 := gfMul a s.n3 ^^^ gfMul b s.n1

/-- R76: the diagonal of MC is 1, which R76 leaves unwritten. -/
theorem mc_eq_mixColumns (s : Nibbles) : mc s = mixColumns 1#4 4#4 s := by
  simp only [mc, mixColumns, gfMul_one_left]

theorem imc_eq_mixColumns (s : Nibbles) : imc s = mixColumns 9#4 2#4 s :=
  rfl

/-- In Fin 4 the other position of the column of i is i + 2. -/
theorem lane_mixColumns (a b : Nibble) (s : Nibbles) (i : Fin 4) :
    lane (mixColumns a b s) i = gfMul a (lane s i) ^^^ gfMul b (lane s (i + 2)) :=
  match i with
  | 0 | 1 | 2 | 3 => rfl

theorem lane_mc (s : Nibbles) (i : Fin 4) : lane (mc s) i = gfMul 1#4 (lane s i) ^^^ gfMul 4#4 (lane s (i + 2)) := by
  rw [mc_eq_mixColumns, lane_mixColumns]

theorem lane_imc (s : Nibbles) (i : Fin 4) : lane (imc s) i = gfMul 9#4 (lane s i) ^^^ gfMul 2#4 (lane s (i + 2)) := by
  rw [imc_eq_mixColumns, lane_mixColumns]

/-- R79: a position of either mix depends on the two positions of its column only. -/
theorem lane_mixes_congr {s s' : Nibbles} {i : Fin 4} (h : lane s i = lane s' i) (h' : lane s (i + 2) = lane s' (i + 2)) :
    lane (mc s) i = lane (mc s') i ∧ lane (imc s) i = lane (imc s') i := by
  simp only [lane_mc, lane_imc, h, h', and_self]

/-- R78: the matrices multiply, and the product has one value on the diagonal and one off it. -/
theorem mixColumns_mixColumns (a b c d : Nibble) (s : Nibbles) :
    mixColumns a b (mixColumns c d s) = mixColumns (gfMul a c ^^^ gfMul b d) (gfMul a d ^^^ gfMul b c) s := by
  apply nibbles_eq_of_lane_eq
  intro i
  have hback : i + 2 + 2 = i := by omega
  simp only [lane_mixColumns, hback, gfMul_xor, xor_gfMul, gfMul_assoc]
  ac_rfl

theorem mixColumns_one_zero (s : Nibbles) : mixColumns 1#4 0#4 s = s := by
  simp [mixColumns]

/-- R78: a mix is undone by the one whose matrix multiplies it to the unit matrix. -/
theorem leftInverse_mixColumns {a b c d : Nibble} (hdiag : gfMul a c ^^^ gfMul b d = 1#4)
    (hoff : gfMul a d ^^^ gfMul b c = 0#4) : Function.LeftInverse (mixColumns a b) (mixColumns c d) := fun s => by
  rw [mixColumns_mixColumns, hdiag, hoff, mixColumns_one_zero]

@[simp] theorem imc_mc (s : Nibbles) : imc (mc s) = s := by
  rw [imc_eq_mixColumns, mc_eq_mixColumns]
  exact leftInverse_mixColumns (by decide) (by decide) s

@[simp] theorem mc_imc (s : Nibbles) : mc (imc s) = s := by
  rw [imc_eq_mixColumns, mc_eq_mixColumns]
  exact leftInverse_mixColumns (by decide) (by decide) s

end Sys2Proof.Machine

namespace Sys2Proof.Proofs

open Sys2Proof.Machine

/-- Settles O38: XOR and the swap undo themselves, and the matrices of the two mixes multiply to the unit matrix. -/
theorem transformsUndoEachOther : Obligations.TransformsUndoEachOther :=
  fun k s => ⟨ark_ark k s, sr_sr s, imc_mc s, mc_imc s⟩

/-- Settles O39: a mix reads the two positions of the column, key-add and substitution the same position. -/
theorem laneStructure : Obligations.LaneStructure := by
  refine ⟨fun s s' h0 h2 => ?_, fun s s' h1 h3 => ?_, fun k s s' i h => ?_⟩
  · obtain ⟨mc0, imc0⟩ := lane_mixes_congr (i := 0) h0 h2
    obtain ⟨mc2, imc2⟩ := lane_mixes_congr (i := 2) h2 h0
    exact ⟨mc0, mc2, imc0, imc2⟩
  · obtain ⟨mc1, imc1⟩ := lane_mixes_congr (i := 1) h1 h3
    obtain ⟨mc3, imc3⟩ := lane_mixes_congr (i := 3) h3 h1
    exact ⟨mc1, mc3, imc1, imc3⟩
  · simp only [nsub, insub, lane_ark, lane_subNibbles, h, and_self]

/-- Settles O35, by the lanes of ARK; the example is computed. -/
theorem keyAddIsLaneXor : Obligations.KeyAddIsLaneXor :=
  ⟨lane_ark, fun k s => ⟨ark_comm k s, ark_ark k s, ark_self k⟩, by decide⟩

/-- Settles O36: each position is read off the definition; the example is computed. -/
theorem rowShiftSwapsTwoAndThree : Obligations.RowShiftSwapsTwoAndThree :=
  ⟨fun s => ⟨rfl, rfl, rfl, rfl, sr_sr s, sr_eq_self_of_lane_eq⟩, by decide⟩

/-- Settles O37: the positions of a pair are each two from the other; the examples are computed. -/
theorem columnMixMatrices : Obligations.ColumnMixMatrices := by
  have pairs : ∀ c ∈ [((0 : Fin 4), (2 : Fin 4)), (1, 3)], c.1 + 2 = c.2 ∧ c.2 + 2 = c.1 := by decide
  refine ⟨fun s c hc => ?_, by decide⟩
  obtain ⟨h1, h2⟩ := pairs c hc
  refine ⟨?_, ?_, ?_, ?_⟩
  · rw [lane_mc, h1]
  · rw [lane_mc, h2, BitVec.xor_comm]
  · rw [lane_imc, h1]
  · rw [lane_imc, h2, BitVec.xor_comm]

end Sys2Proof.Proofs
end

section
/-! PROOFS. Family 45_pipeline_commands.md. First layer: the stages (R86 to R88). What each stage writes and which stage is next are
tables, so one lemma says what a stage step does, and one what several stages do one after the other while the host's words wait. -/

namespace Sys2Proof.Machine

open Sys2Proof.Safety

/-- R86, R87: the stage after each stage, with Idle after E6 and D6. -/
def nextStage : Stage → Stage
  | .idle => .idle
  | .e1 => .e2
  | .e2 => .e3
  | .e3 => .e4
  | .e4 => .e5
  | .e5 => .e6
  | .e6 => .idle
  | .d1 => .d2
  | .d2 => .d3
  | .d3 => .d4
  | .d4 => .d5
  | .d5 => .d6
  | .d6 => .idle

/-- R86, R87: what each stage leaves in S, which E6 and D6 do not change. -/
def stageData (rk : RoundKeys) : Stage → Nibbles → Nibbles
  | .idle, v => v
  | .e1, v => ark rk.pre v
  | .e2, v => mc (sr (nsub v))
  | .e3, v => ark rk.round1 v
  | .e4, v => sr (nsub v)
  | .e5, v => ark rk.round2 v
  | .e6, v => v
  | .d1, v => ark rk.round2 v
  | .d2, v => insub (sr v)
  | .d3, v => imc (ark rk.round1 v)
  | .d4, v => insub (sr v)
  | .d5, v => ark rk.pre v
  | .d6, v => v

/-- What `n` stages from the stage `g` on leave in S. -/
def stagesData (rk : RoundKeys) : (n : Nat) → (g : Stage) → Nibbles → Nibbles
  | 0, _, v => v
  | n + 1, g, v => stagesData rk n (nextStage g) (stageData rk g v)

/-- R86: the first five stages of ENC are its datapath. -/
theorem stagesData_e1 (rk : RoundKeys) (p : Block) : stagesData rk 5 .e1 (toState p) = encrypt rk p :=
  rfl

/-- R87: the first five stages of DEC are its datapath. -/
theorem stagesData_d1 (rk : RoundKeys) (c : Block) : stagesData rk 5 .d1 (toState c) = decrypt rk c :=
  rfl

/-- R88: no stage is left after six. -/
theorem nextStage_iterate_six (g : Stage) : nextStage^[6] g = .idle := by
  cases g <;> rfl

theorem nextStage_ne_self {g : Stage} (hg : g ≠ .idle) : nextStage g ≠ g := by
  cases g <;> simp [nextStage] at hg ⊢

/-- A stage that is not over after `n + 1` stages is not over after the first. -/
theorem nextStage_ne_idle_of_iterate {n : Nat} {g : Stage} (h : nextStage^[n + 1] g ≠ .idle) : nextStage g ≠ .idle := by
  intro hg
  rw [Function.iterate_succ_apply, hg, Function.iterate_fixed rfl] at h
  exact h rfl

variable {s t : State} {rk : RoundKeys} {v : Nibbles} {g : Stage} {n : Nat}

/-- R105: with STAGE = Idle a stage step does nothing. -/
theorem runStage_of_idle (hs : s.stage = .idle) : runStage s = .next s := by
  simp only [runStage, hs]

/-- R86, R87: a stage that another one follows writes S and moves on. -/
theorem runStage_of_inner (hv : s.sreg = some v) (hrk : HoldsKeys s rk) (hs : s.stage = g) (hg : nextStage g ≠ .idle) :
    runStage s = .next (toStage (stageData rk g v) (nextStage g) s) := by
  obtain ⟨h0, h1, h2⟩ := hrk
  cases g
  case idle | e6 | d6 => exact absurd rfl hg
  case e1 | d5 => simp only [runStage, hs, h0, hv, withValue, stageData, nextStage]
  case e3 | d3 => simp only [runStage, hs, h1, hv, withValue, stageData, nextStage]
  case e5 | d1 => simp only [runStage, hs, h2, hv, withValue, stageData, nextStage]
  case e2 | e4 | d2 | d4 => simp only [runStage, hs, hv, withValue, stageData, nextStage]

/-- R86, R87: the last stage of either command delivers S. -/
theorem runStage_of_last (hv : s.sreg = some v) (hs : s.stage = g) (hg : g ≠ .idle) (hlast : nextStage g = .idle) :
    runStage s = .next (finishStages v s) := by
  cases g
  case idle => exact absurd rfl hg
  case e6 | d6 => simp only [runStage, hs, hv, withValue]
  case e1 | e2 | e3 | e4 | e5 | d1 | d2 | d3 | d4 | d5 => cases hlast

/-- R24: with KEY_VALID = 1 the registers hold round keys. -/
theorem exists_holdsKeys (h : Inv s) (hk : s.status.keyValid = true) : ∃ rk, HoldsKeys s rk := by
  obtain ⟨a, ha⟩ := Option.isSome_iff_exists.1 (h.rk0_valid.trans hk)
  obtain ⟨b, hb⟩ := Option.isSome_iff_exists.1 (h.rk1_valid.trans hk)
  obtain ⟨c, hc⟩ := Option.isSome_iff_exists.1 (h.rk2_valid.trans hk)
  exact ⟨⟨a, b, c⟩, ha, hb, hc⟩

/-- R86, R87: while a command is in progress S and the round keys have values. -/
theorem exists_operands_of_in_progress (h : Inv s) (hs : s.stage ≠ .idle) : ∃ v rk, s.sreg = some v ∧ HoldsKeys s rk := by
  obtain ⟨hS, hk, -, -⟩ := h.in_progress hs
  obtain ⟨v, hv⟩ := Option.isSome_iff_exists.1 hS
  obtain ⟨rk, hrk⟩ := exists_holdsKeys h hk
  exact ⟨v, rk, hv, hrk⟩

/-- R88: under the invariant a command in progress always goes on to the next stage. -/
theorem runStage_progress (h : Inv s) (hs : s.stage ≠ .idle) :
    ∃ t, runStage s = .next t ∧ t.stage = nextStage s.stage ∧ t.host = s.host := by
  obtain ⟨v, rk, hv, hrk⟩ := exists_operands_of_in_progress h hs
  by_cases hlast : nextStage s.stage = .idle
  · exact ⟨_, runStage_of_last hv rfl hs hlast, hlast.symm, rfl⟩
  · exact ⟨_, runStage_of_inner hv hrk rfl hlast, rfl, rfl⟩

/-- R110: the host has only commands left to send. -/
def OnlyCommands (host : List HostMove) : Prop :=
  ∀ m ∈ host, ∃ w, m = .present w

/-- R108 duty 1: while a command is in progress the host's commands wait, and the step is a stage. -/
theorem step_of_waiting (hw : OnlyCommands s.host) (hs : s.stage ≠ .idle) : step s = runStage s := by
  refine step_of_stageTurn (rest := s.host) ?_
  cases hh : s.host with
  | nil => exact .inl ⟨hh, rfl⟩
  | cons m rest =>
    obtain ⟨w, rfl⟩ := hw m (by simp [hh])
    exact .inr (.inr ⟨hs, hh.symm, w, rest, hh⟩)

/-- R86 to R88: the step of the last stage of a command. -/
theorem step_of_last (hw : OnlyCommands s.host) (hv : s.sreg = some v) (hs : s.stage = g) (hg : g ≠ .idle)
    (hlast : nextStage g = .idle) : step s = .next (finishStages v s) :=
  (step_of_waiting hw (hs ▸ hg)).trans (runStage_of_last hv hs hg hlast)

/-- R88: `n` steps inside a command. -/
theorem run_inner_stages (hw : OnlyCommands s.host) (hv : s.sreg = some v) (hrk : HoldsKeys s rk) (hs : s.stage = g)
    (hn : nextStage^[n] g ≠ .idle) :
    Host.Core.run Sys2Proof.core n s = .next (toStage (stagesData rk n g v) (nextStage^[n] g) s) := by
  induction n generalizing s v g with
  | zero =>
    cases s
    cases hv
    cases hs
    rfl
  | succ n ih =>
    have hnext := nextStage_ne_idle_of_iterate hn
    have hidle : s.stage ≠ .idle := by
      rintro h
      exact hnext (by rw [← hs, h]; rfl)
    have hstep := (step_of_waiting hw hidle).trans (runStage_of_inner hv hrk hs hnext)
    rw [core_run_succ hstep]
    exact ih (s := toStage (stageData rk g v) (nextStage g) s) hw rfl hrk rfl hn

/-- R88: the steps that end a command, when the last of them is the one after `n` stages. -/
theorem run_to_last_stage (hw : OnlyCommands s.host) (hv : s.sreg = some v) (hrk : HoldsKeys s rk) (hs : s.stage = g)
    (hn : nextStage^[n] g ≠ .idle) (hlast : nextStage^[n + 1] g = .idle) :
    Host.Core.run Sys2Proof.core (n + 1) s =
      .next (finishStages (stagesData rk n g v) (toStage (stagesData rk n g v) (nextStage^[n] g) s)) := by
  rw [Function.iterate_succ_apply'] at hlast
  have hstep := step_of_last (s := toStage (stagesData rk n g v) (nextStage^[n] g) s) hw rfl rfl hn hlast
  exact (run_add _ (run_inner_stages hw hv hrk hs hn)).trans (core_run_succ hstep)

/-- R24: a run keeps the invariant. -/
theorem inv_of_run (h : Inv s) (hrun : Host.Core.run Sys2Proof.core n s = .next t) : Inv t := by
  induction n generalizing s with
  | zero =>
    cases hrun
    exact h
  | succ n ih =>
    obtain ⟨u, hu, hrun⟩ := next_of_run_succ _ hrun
    exact ih (Proofs.stepKeepsInv s u h hu) hrun

/-- R88: a block with `n` stages to go is idle after at most `n` steps, and takes no command on the way. -/
theorem run_reaches_idle_of_iterate (h : Inv s) (hw : OnlyCommands s.host) (hn : nextStage^[n] s.stage = .idle) :
    ∃ m ≤ n, ∃ t, Host.Core.run Sys2Proof.core m s = .next t ∧ t.stage = .idle ∧ t.host = s.host := by
  induction n generalizing s with
  | zero => exact ⟨0, le_rfl, s, rfl, hn, rfl⟩
  | succ n ih =>
    by_cases hs : s.stage = .idle
    · exact ⟨0, Nat.zero_le _, s, rfl, hs, rfl⟩
    · obtain ⟨u, hu, hstage, hhost⟩ := runStage_progress h hs
      have hstep := (step_of_waiting hw hs).trans hu
      obtain ⟨m, hm, t, hrun, ht, htu⟩ := ih (Proofs.stepKeepsInv s u h hstep) (hhost ▸ hw) (hstage ▸ hn)
      exact ⟨m + 1, Nat.succ_le_succ hm, t, (core_run_succ hstep).trans hrun, ht, htu.trans hhost⟩

/-- R88: whatever stage the block is in, it is idle after at most six steps. -/
theorem run_reaches_idle (h : Inv s) (hw : OnlyCommands s.host) :
    ∃ m ≤ 6, ∃ t, Host.Core.run Sys2Proof.core m s = .next t ∧ t.stage = .idle ∧ t.host = s.host :=
  run_reaches_idle_of_iterate h hw (nextStage_iterate_six _)

/-- R108: a word at the port of a stage step is left there. -/
theorem StageTurn.rest_of_present {rest r : List HostMove} {w : CommandWord} (h : StageTurn s rest)
    (hh : s.host = .present w :: r) : rest = s.host := by
  rcases h with ⟨hnil, -⟩ | hhold | ⟨-, hrest, -⟩
  · cases hnil.symm.trans hh
  · cases hhold.symm.trans hh
  · exact hrest

end Sys2Proof.Machine
end

section
/-! PROOFS. Second layer: ENC and DEC as one command with a datapath and a first stage (R80 to R87), that the datapaths are inverse
(R89), and that the machine goes on unless its run is finished (R110). -/

namespace Sys2Proof.Machine

open Sys2Proof.Safety

/-- R82, R84, R86, R87: a cipher command on the operand `x`, with its datapath and its first stage. -/
inductive CipherCommand (x : Block) : Instr → (RoundKeys → Block → Nibbles) → Stage → Prop
  | enc : CipherCommand x (.enc x) encrypt .e1
  | dec : CipherCommand x (.dec x) decrypt .d1

/-- R80: what ENC and DEC have in common. -/
def execCipher (f : RoundKeys → Block → Nibbles) (g : Stage) (x : Block) (s : State) : Result :=
  whenAccepting s <| whenKeyed s <|
    match s.level with
    | .atomic => withRoundKeys s fun rk => .next (deliver (f rk x) s)
    | .stages => .next (beginStages (toState x) g s)

variable {x : Block} {i : Instr} {f : RoundKeys → Block → Nibbles} {g : Stage} {s t : State} {rk : RoundKeys}

theorem exists_cipherCommand (h : i = .enc x ∨ i = .dec x) : ∃ f g, CipherCommand x i f g := by
  rcases h with rfl | rfl
  · exact ⟨_, _, .enc⟩
  · exact ⟨_, _, .dec⟩

theorem exec_eq_execCipher (hc : CipherCommand x i f g) (s : State) : exec i s = execCipher f g x s := by
  cases hc <;> rfl

/-- Every next state of a cipher command. -/
theorem exec_cipher_next (hc : CipherCommand x i f g) (h : exec i s = .next t) : CipherEffect f g x s t := by
  cases hc with
  | enc =>
    obtain ⟨-, -, heffect⟩ := execEnc_next h
    exact heffect
  | dec =>
    obtain ⟨-, -, heffect⟩ := execDec_next h
    exact heffect

/-- R93: without a key a cipher command raises NoKey. -/
theorem exec_cipher_of_no_key (hc : CipherCommand x i f g) (ha : Accepting s) (hk : s.status.keyValid = false) :
    exec i s = .next (raiseFault .noKey s) := by
  rw [exec_eq_execCipher hc, execCipher, whenAccepting_of_accepting ha.1 ha.2, whenKeyed, hk]
  rfl

/-- R82, R84: a cipher command in the atomic model delivers its datapath's result. -/
theorem exec_cipher_of_atomic (hc : CipherCommand x i f g) (ha : Accepting s) (hl : s.level = .atomic)
    (hk : s.status.keyValid = true) (hrk : HoldsKeys s rk) : exec i s = .next (deliver (f rk x) s) := by
  obtain ⟨h0, h1, h2⟩ := hrk
  rw [exec_eq_execCipher hc, execCipher, whenAccepting_of_accepting ha.1 ha.2, whenKeyed_of_keyValid hk, hl]
  exact withRoundKeys_of_values h0 h1 h2

/-- R86, R87: a cipher command at stage level is accepted into its first stage. -/
theorem exec_cipher_of_stages (hc : CipherCommand x i f g) (ha : Accepting s) (hl : s.level = .stages)
    (hk : s.status.keyValid = true) : exec i s = .next (beginStages (toState x) g s) := by
  rw [exec_eq_execCipher hc, execCipher, whenAccepting_of_accepting ha.1 ha.2, whenKeyed_of_keyValid hk, hl]

/-- R86, R87: either command has six stages, and the first five are its datapath. -/
theorem CipherCommand.six_stages (hc : CipherCommand x i f g) :
    nextStage^[5] g ≠ .idle ∧ ∀ rk, stagesData rk 5 g (toState x) = f rk x := by
  cases hc with
  | enc => exact ⟨by decide, fun rk => stagesData_e1 rk x⟩
  | dec => exact ⟨by decide, fun rk => stagesData_d1 rk x⟩

/-- R88: in an idle block, what acceptance and the last stage write of STATUS and STAGE amounts to delivery. -/
theorem finishStages_toStage_beginStages (hb : s.status.busy = false) (hs : s.stage = .idle) (v v' : Nibbles) (g g' : Stage) :
    finishStages v (toStage v g' (beginStages v' g s)) = deliver v s := by
  obtain ⟨_, _, _, _, _, ⟨_, _, _, _, _⟩, _, _, _⟩ := s
  cases hb
  cases hs
  rfl

/-- R88: after its acceptance a cipher command delivers its datapath's result in six stages. -/
theorem run_six_stages (hc : CipherCommand x i f g) (hb : s.status.busy = false) (hs : s.stage = .idle)
    (hw : OnlyCommands s.host) (hrk : HoldsKeys s rk) :
    Host.Core.run Sys2Proof.core 6 (beginStages (toState x) g s) = .next (deliver (f rk x) s) := by
  obtain ⟨hn, hdata⟩ := hc.six_stages
  have hrun := run_to_last_stage (s := beginStages (toState x) g s) (g := g) hw rfl hrk rfl hn (nextStage_iterate_six g)
  rw [hdata] at hrun
  exact hrun.trans (congrArg Host.Outcome.next (finishStages_toStage_beginStages hb hs _ _ _ _))

/-! R89: the datapaths. -/

@[simp] theorem insub_nsub (s : Nibbles) : insub (nsub s) = s :=
  leftInverse_subNibbles sboxI_sbox s

@[simp] theorem nsub_insub (s : Nibbles) : nsub (insub s) = s :=
  leftInverse_subNibbles sbox_sboxI s

/-- R89: each step of the encryption is undone by one of the decryption, from the last to the first. -/
theorem decrypt_encrypt (rk : RoundKeys) (p : Block) : decrypt rk (toBlock (encrypt rk p)) = toState p := by
  simp only [decrypt, encrypt, toState_toBlock, ark_ark, sr_sr, insub_nsub, imc_mc]

/-- R89: and the other way round. -/
theorem encrypt_decrypt (rk : RoundKeys) (c : Block) : encrypt rk (toBlock (decrypt rk c)) = toState c := by
  simp only [decrypt, encrypt, toState_toBlock, ark_ark, sr_sr, nsub_insub, mc_imc]

/-- R89: encryption of blocks has decryption for its inverse. -/
theorem bijective_encrypt (rk : RoundKeys) : Function.Bijective fun p => toBlock (encrypt rk p) := by
  refine Function.bijective_iff_has_inverse.2 ⟨fun c => toBlock (decrypt rk c), fun p => ?_, fun c => ?_⟩
  · simp only [decrypt_encrypt, toBlock_toState]
  · simp only [encrypt_decrypt, toBlock_toState]

/-! R110: progress. -/

/-- R80: under the invariant an accepting block answers every cipher command. -/
theorem exec_cipher_progress (hc : CipherCommand x i f g) (h : Inv s) (ha : Accepting s) :
    ∃ t, exec i s = .next t ∧ t.host = s.host := by
  cases hk : s.status.keyValid with
  | false => exact ⟨_, exec_cipher_of_no_key hc ha hk, rfl⟩
  | true =>
    cases hl : s.level with
    | atomic =>
      obtain ⟨rk, hrk⟩ := exists_holdsKeys h hk
      exact ⟨_, exec_cipher_of_atomic hc ha hl hk hrk, rfl⟩
    | stages => exact ⟨_, exec_cipher_of_stages hc ha hl hk, rfl⟩

/-- R80: under the invariant an accepting block answers every command. -/
theorem exec_progress (h : Inv s) (ha : Accepting s) : (i : Instr) → ∃ t, exec i s = .next t ∧ t.host = s.host
  | .key k => ⟨_, exec_key_of_accepting ha k, rfl⟩
  | .enc _ => exec_cipher_progress .enc h ha
  | .dec _ => exec_cipher_progress .dec h ha

/-- R80: under the invariant an accepting block takes the word at its port. -/
theorem step_takes_word (h : Inv s) (ha : Accepting s) {w : CommandWord} {rest : List HostMove}
    (hh : s.host = .present w :: rest) : ∃ t, step s = .next t ∧ t.host = rest := by
  rw [step_of_present hh ha.2]
  cases hd : decode w with
  | reserved => exact ⟨_, acceptWord_of_reserved (s := { s with host := rest }) ha hd, rfl⟩
  | command i =>
    rw [acceptWord_of_command (s := { s with host := rest }) ha hd]
    exact exec_progress (h.withHost rest) ha i

theorem ne_of_host_eq_tail {m : HostMove} {rest : List HostMove} (hs : s.host = m :: rest) (ht : t.host = rest) : t ≠ s := by
  rintro rfl
  exact List.cons_ne_self m rest (hs.symm.trans ht)

/-- R105, R104: an idle block uses up the host's next move, unless it is stuck. -/
theorem step_uses_move_of_idle (h : Inv s) (hs : s.stage = .idle) (hstuck : ¬Stuck s) {m : HostMove} {rest : List HostMove}
    (hh : s.host = m :: rest) : ∃ t, step s = .next t ∧ t.host = rest := by
  cases m with
  | reset => exact ⟨_, step_of_reset hh, rfl⟩
  | hold =>
    refine ⟨{ s with host := rest }, ?_, rfl⟩
    rw [step_of_stageTurn (.inr (.inl hh))]
    exact runStage_of_idle (s := { s with host := rest }) hs
  | present w =>
    have hf : s.status.fault = false := Bool.eq_false_iff.2 fun hf => hstuck ⟨hf, hs, w, rest, hh⟩
    exact step_takes_word h ⟨hf, hs⟩ hh

/-- R88, R104: a block in progress goes on to another stage, or uses up a reset. -/
theorem step_moves_of_in_progress (h : Inv s) (hs : s.stage ≠ .idle) : ∃ t, step s = .next t ∧ t ≠ s := by
  have of_turn {rest : List HostMove} (hturn : StageTurn s rest) : ∃ t, step s = .next t ∧ t ≠ s := by
    obtain ⟨t, hrun, hstage, -⟩ := runStage_progress (h.withHost rest) hs
    refine ⟨t, (step_of_stageTurn hturn).trans hrun, ?_⟩
    rintro rfl
    exact nextStage_ne_self hs hstage.symm
  match hh : s.host with
  | [] => exact of_turn (.inl ⟨hh, rfl⟩)
  | .hold :: rest => exact of_turn (.inr (.inl hh))
  | .present w :: rest => exact of_turn (.inr (.inr ⟨hs, rfl, w, rest, hh⟩))
  | .reset :: rest => exact ⟨_, step_of_reset hh, ne_of_host_eq_tail hh rfl⟩

/-- R110: under the invariant a run that is not finished goes on to another state. -/
theorem step_moves (h : Inv s) (hfin : ¬Finished s) : ∃ t, step s = .next t ∧ t ≠ s := by
  by_cases hs : s.stage = .idle
  · match hh : s.host with
    | [] => exact absurd (.inl ⟨hh, hs⟩) hfin
    | m :: rest =>
      obtain ⟨t, hstep, ht⟩ := step_uses_move_of_idle h hs (fun hstuck => hfin (.inr hstuck)) hh
      exact ⟨t, hstep, ne_of_host_eq_tail hh ht⟩
  · exact step_moves_of_in_progress h hs

/-- R110: a finished run stays where it is, or is stuck. -/
theorem step_of_finished (hfin : Finished s) : step s = .next s ∨ step s = .fault .stuck := by
  rcases hfin with ⟨hh, hs⟩ | ⟨hf, hs, w, rest, hh⟩
  · left
    simp only [step, hostTurn, hh, runStage_of_idle hs]
  · exact .inr (step_of_present_of_fault hf hs hh)

theorem onlyCommands_map (words : List CommandWord) : OnlyCommands (words.map .present) := by
  intro m hm
  obtain ⟨w, -, rfl⟩ := List.mem_map.1 hm
  exact ⟨w, rfl⟩

/-- R88: a word is taken and its command completed in at most seven steps, and the later words wait. -/
theorem run_completes_word (h : Inv s) (ha : Accepting s) {w : CommandWord} {rest : List HostMove}
    (hh : s.host = .present w :: rest) (hw : OnlyCommands rest) :
    ∃ n ≤ 7, ∃ t, Host.Core.run Sys2Proof.core n s = .next t ∧ t.stage = .idle ∧ t.host = rest := by
  obtain ⟨u, hstep, rfl⟩ := step_takes_word h ha hh
  obtain ⟨m, hm, t, hrun, ht⟩ := run_reaches_idle (Proofs.stepKeepsInv s u h hstep) hw
  exact ⟨m + 1, Nat.succ_le_succ hm, t, (core_run_succ hstep).trans hrun, ht⟩

/-- R110, R95: from an idle block every list of words comes to its end, in at most seven steps a word. -/
theorem run_finishes (words : List CommandWord) (h : Inv s) (hs : s.stage = .idle) (hh : s.host = words.map .present) :
    ∃ n t, n ≤ 7 * words.length ∧ Host.Core.run Sys2Proof.core n s = .next t ∧ Finished t ∧
      (t.status.fault = false → t.host = []) := by
  induction words generalizing s with
  | nil => exact ⟨0, s, le_rfl, rfl, .inl ⟨hh, hs⟩, fun _ => hh⟩
  | cons w words ih =>
    cases hf : s.status.fault with
    | true => exact ⟨0, s, Nat.zero_le _, rfl, .inr ⟨hf, hs, w, _, hh⟩, fun hf' => nomatch hf.symm.trans hf'⟩
    | false =>
      obtain ⟨n, hn, u, hrun, hu, huh⟩ := run_completes_word h ⟨hf, hs⟩ hh (onlyCommands_map words)
      obtain ⟨m, t, hm, hrun', ht⟩ := ih (inv_of_run h hrun) hu huh
      refine ⟨n + m, t, ?_, (run_add _ hrun).trans hrun', ht⟩
      rw [List.length_cons]
      omega

end Sys2Proof.Machine
end

section
/-! PROOFS. The obligations on ENC and DEC as commands (R80 to R84, R89, R102). -/

namespace Sys2Proof.Proofs

open Sys2Proof.Machine Sys2Proof.Safety

/-- Settles O43, by the three effects of a cipher command: NoKey, acceptance and delivery. -/
theorem cipherCommandFrame : Obligations.CipherCommandFrame := by
  intro x i s t hi h
  obtain ⟨f, g, hc⟩ := exists_cipherCommand hi
  rcases exec_cipher_next hc h with ⟨hk, rfl⟩ | ⟨hk, -, rfl⟩ | ⟨hk, -, rk, -, -, -, rfl⟩
  · exact ⟨rfl, rfl, rfl, rfl, rfl, rfl, by simp [hk], fun _ => ⟨rfl, rfl, rfl, rfl, rfl⟩⟩
  · exact ⟨rfl, rfl, rfl, rfl, rfl, rfl, fun _ => ⟨rfl, rfl⟩, by simp [hk]⟩
  · exact ⟨rfl, rfl, rfl, rfl, rfl, rfl, fun _ => ⟨rfl, rfl⟩, by simp [hk]⟩

/-- Settles O49: the datapaths are inverse under any round keys, and KEY, ENC and DEC run them one after the other. -/
theorem roundTrip : Obligations.RoundTrip := by
  refine ⟨fun k => decrypt_encrypt _, fun k => encrypt_decrypt _, fun k => bijective_encrypt _, fun k p s ha hl => ?_⟩
  have hrk := holdsKeys_loadKeys (keyExpand k) s
  have henc := exec_cipher_of_atomic (s := loadKeys (keyExpand k) s) (.enc (x := p)) ha hl rfl hrk
  have hdec := exec_cipher_of_atomic (s := deliver (encrypt (keyExpand k) p) (loadKeys (keyExpand k) s))
    (.dec (x := toBlock (encrypt (keyExpand k) p))) ha hl rfl hrk
  refine ⟨_, _, _, _, exec_key_of_accepting ha k, henc, rfl, hdec, ?_⟩
  rw [deliver_dout, decrypt_encrypt, toBlock_toState]

/-- Settles O55: what is delivered is the datapath's result on the same keys and operand. -/
theorem resultDependsOnKeysAndOperand : Obligations.ResultDependsOnKeysAndOperand := by
  intro x i s s' rk hi ha ha' hl hl' hk hk' hrk hrk'
  obtain ⟨f, g, hc⟩ := exists_cipherCommand hi
  exact ⟨_, _, exec_cipher_of_atomic hc ha hl hk hrk, exec_cipher_of_atomic hc ha' hl' hk' hrk', rfl, rfl⟩

/-- Settles O40: an idle block offers the word for acceptance, and an accepting block runs the command it decodes to. -/
theorem stepRunsTheDecodedCommand : Obligations.StepRunsTheDecodedCommand :=
  fun _ _ _ _ ha hh hd => step_of_command ha hh hd

/-- Settles O41, by the datapath of ENC; the example's value is computed. -/
theorem encDeliversTheCiphertext : Obligations.EncDeliversTheCiphertext := by
  refine ⟨fun p s rk => exec_cipher_of_atomic .enc, fun p s => exec_cipher_of_no_key .enc, fun s ha hl hk hrk => ?_⟩
  have hvalue : encrypt (keyExpand 0x4AF5) 0xD728 = ⟨0x2, 0xE, 0x4, 0xC⟩ := by decide
  have hexec := exec_cipher_of_atomic (.enc (x := 0xD728)) ha hl hk hrk
  rwa [hvalue] at hexec

/-- Settles O42, by the datapath of DEC; the examples' values are computed. -/
theorem decDeliversThePlaintext : Obligations.DecDeliversThePlaintext := by
  refine ⟨fun c s rk => exec_cipher_of_atomic .dec, fun c s => exec_cipher_of_no_key .dec, fun s ha hl hk hrk => ⟨?_, ?_⟩⟩
  · have hvalue : decrypt (keyExpand 0x4AF5) 0x24EC = ⟨0xD, 0x2, 0x7, 0x8⟩ := by decide
    have hexec := exec_cipher_of_atomic (.dec (x := 0x24EC)) ha hl hk hrk
    rwa [hvalue] at hexec
  · have hvalue : toBlock (decrypt (keyExpand 0x4AF5) 0xD728) = 0x1A7D := by decide
    exact ⟨_, exec_cipher_of_atomic .dec ha hl hk hrk, congrArg some hvalue⟩

end Sys2Proof.Proofs
end

section
/-! PROOFS. The obligations on the stages and on the length of runs (R86 to R88, R110). -/

namespace Sys2Proof.Proofs

open Sys2Proof.Machine Sys2Proof.Safety

/-- Settles O46: the first step is the acceptance, and its six stages deliver what the atomic command delivers. -/
theorem stagesAgreeWithAtomic : Obligations.StagesAgreeWithAtomic := by
  intro s w rest x i h ha hk hl hh hw hi hd
  obtain ⟨f, g, hc⟩ := exists_cipherCommand hi
  obtain ⟨rk, hrk⟩ := exists_holdsKeys h hk
  have hatomic := exec_cipher_of_atomic (s := { s with level := .atomic, host := rest }) hc ha rfl hk hrk
  have haccept := (step_of_command ha hh hd).trans (exec_cipher_of_stages (s := { s with host := rest }) hc ha hl hk)
  have hstages := run_six_stages (s := { s with host := rest }) hc (h.busy_eq_false_of_idle ha.2) ha.2 hw hrk
  refine ⟨_, hatomic, (core_run_succ haccept).trans (hstages.trans ?_)⟩
  cases s
  cases hl
  rfl

/-- Settles O47: from E1 or D1 the fifth stage step reaches the last stage, and the sixth delivers. -/
theorem sixStageStepsToIdle : Obligations.SixStageStepsToIdle := by
  intro s h hs hw
  have hin : ∀ n < 6, nextStage^[n] s.stage ≠ .idle := by
    rcases hs with hs | hs
    · rw [hs]; decide
    · rw [hs]; decide
  obtain ⟨v, rk, hv, hrk⟩ := exists_operands_of_in_progress h (hin 0 (by decide))
  refine ⟨⟨_, run_to_last_stage hw hv hrk rfl (hin 5 (by decide)) (nextStage_iterate_six _), rfl, rfl, rfl, rfl⟩, ?_⟩
  exact fun n hn => ⟨_, run_inner_stages hw hv hrk rfl (hin n hn), hin n hn⟩

/-- Settles O48: in progress only a stage step is possible, which writes DOUT and DOUT_VALID in the last stage alone. -/
theorem commandInProgressKeepsKeysAndDout : Obligations.CommandInProgressKeepsKeysAndDout := by
  intro s t hs hr hstep
  cases step_effect hstep with
  | reset _ hh => exact absurd hh (hr _)
  | fault _ _ ha | key _ _ ha | deliver _ _ ha | accept _ _ ha => exact absurd ha.2 hs
  | stay _ _ hidle => exact absurd hidle hs
  | stage rest hturn => exact ⟨rfl, rfl, rfl, rfl, rfl, rfl, fun _ _ => hturn.rest_of_present, fun _ _ => ⟨rfl, rfl⟩⟩
  | finish rest hturn hlast =>
    refine ⟨rfl, rfl, rfl, rfl, rfl, rfl, fun _ _ => hturn.rest_of_present, fun he hd => ?_⟩
    exact absurd hlast (by simp [he, hd])

/-- Settles O60: a run starts idle and under the invariant, and a step from a state that is not finished leads to another state. -/
theorem everyRunEnds : Obligations.EveryRunEnds := by
  obtain ⟨-, -, hstart⟩ := runStartsInInvariant
  refine ⟨fun level words => run_finishes words (hstart level words).1 rfl rfl, fun s h => ⟨step_of_finished, fun hend => ?_⟩⟩
  by_contra hfin
  obtain ⟨t, hstep, hne⟩ := step_moves h hfin
  rw [hstep] at hend
  rcases hend with heq | heq
  · cases heq
    exact hne rfl
  · cases heq

/-- Settles O44, by the acceptance of ENC and the stages' table. -/
theorem encryptionStages : Obligations.EncryptionStages := by
  refine ⟨fun p s => exec_cipher_of_stages .enc, fun s v rk hv hrk => ?_⟩
  have inner (g : Stage) (hg : nextStage g ≠ .idle) (hs : s.stage = g) := runStage_of_inner hv hrk hs hg
  exact ⟨inner .e1 nofun, inner .e2 nofun, inner .e3 nofun, inner .e4 nofun, inner .e5 nofun,
    fun hs => runStage_of_last hv hs nofun rfl⟩

/-- Settles O45, by the acceptance of DEC and the stages' table. -/
theorem decryptionStages : Obligations.DecryptionStages := by
  refine ⟨fun c s => exec_cipher_of_stages .dec, fun s v rk hv hrk => ?_⟩
  have inner (g : Stage) (hg : nextStage g ≠ .idle) (hs : s.stage = g) := runStage_of_inner hv hrk hs hg
  exact ⟨inner .d1 nofun, inner .d2 nofun, inner .d3 nofun, inner .d4 nofun, inner .d5 nofun,
    fun hs => runStage_of_last hv hs nofun rfl⟩

end Sys2Proof.Proofs
end

section
/-! PROOFS. Family 60_exceptions.md. First layer: a fault is recorded in an idle block only (R96), no stage stops with a fault outcome
and none records one, a block that is not stuck always has a step (R95, R108), and what ENC or DEC delivers does not depend on an
earlier result (R102). -/

namespace Sys2Proof.Safety

open Sys2Proof.Machine

/-- R96: no fault is recorded while a command is in progress. -/
theorem Inv.idle_of_fault {s : State} (h : Inv s) (hf : s.status.fault = true) : s.stage = .idle := by
  by_contra hs
  obtain ⟨-, -, -, hno⟩ := h.in_progress hs
  cases hf.symm.trans hno

end Sys2Proof.Safety

namespace Sys2Proof.Machine

open Sys2Proof.Safety

variable {s t : State} {x : Block} {i : Instr} {f : RoundKeys → Block → Nibbles} {g : Stage} {rk : RoundKeys}

/-- R95: under the invariant a presented word and FAULT = 1 are all that makes a block stuck. -/
theorem stuck_iff (h : Inv s) : Stuck s ↔ s.status.fault = true ∧ ∃ w rest, s.host = .present w :: rest :=
  ⟨fun ⟨hf, _, hh⟩ => ⟨hf, hh⟩, fun ⟨hf, hh⟩ => ⟨hf, h.idle_of_fault hf, hh⟩⟩

/-- R95, R96: a stuck block has no step. -/
theorem step_of_stuck (hstuck : Stuck s) : step s = .fault .stuck := by
  obtain ⟨hf, hs, w, rest, hh⟩ := hstuck
  exact step_of_present_of_fault hf hs hh

/-- R105: an idle block with no move of the host left does nothing. -/
theorem step_of_no_move (hs : s.stage = .idle) (hh : s.host = []) : step s = .next s := by
  simp only [step, hostTurn, hh, runStage_of_idle hs]

/-- R95, R108: under the invariant a block that is not stuck has a step, to another state or, at the end of its run, to the same. -/
theorem exists_step_of_not_stuck (h : Inv s) (hstuck : ¬Stuck s) : ∃ t, step s = .next t := by
  by_cases hfin : Finished s
  · obtain ⟨hh, hs⟩ := hfin.resolve_right hstuck
    exact ⟨s, step_of_no_move hs hh⟩
  · obtain ⟨t, hstep, -⟩ := step_moves h hfin
    exact ⟨t, hstep⟩

/-- R23: a read stops with no fault outcome of its own. -/
theorem withValue_ne_fault {r : Option Nibbles} {k : Nibbles → Result} {e : Fault} (h : ∀ v, k v ≠ .fault e) :
    withValue r k ≠ .fault e := by
  cases r with
  | none => nofun
  | some v => exact h v

/-- R96: a stage step stops with no fault outcome; it reads registers and answers a next state. -/
theorem runStage_ne_fault (s : State) (e : Fault) : runStage s ≠ .fault e := by
  cases hs : s.stage <;> simp only [runStage, hs]
  case idle => nofun
  case e1 | e3 | e5 | d1 | d3 | d5 => exact withValue_ne_fault fun _ => withValue_ne_fault nofun
  case e2 | e4 | e6 | d2 | d4 | d6 => exact withValue_ne_fault nofun

/-- R96: a stage step writes neither FAULT nor CAUSE. -/
theorem runStage_keeps_fault (h : runStage s = .next t) :
    t.status.fault = s.status.fault ∧ t.status.cause = s.status.cause := by
  rcases runStage_next h with ⟨-, rfl⟩ | ⟨-, v, -, ⟨v', g, -, rfl⟩ | ⟨-, rfl⟩⟩
  · exact ⟨rfl, rfl⟩
  · exact ⟨rfl, rfl⟩
  · exact ⟨rfl, rfl⟩

/-- R96: with a key a cipher command that is taken is executed, at either level, and raises no fault. -/
theorem exec_cipher_of_keyed (hc : CipherCommand x i f g) (ha : Accepting s) (hk : s.status.keyValid = true)
    (hrk : HoldsKeys s rk) : ∃ t, exec i s = .next t ∧ t.status.fault = false := by
  cases hl : s.level with
  | atomic => exact ⟨_, exec_cipher_of_atomic hc ha hl hk hrk, ha.1⟩
  | stages => exact ⟨_, exec_cipher_of_stages hc ha hl hk, ha.1⟩

/-- R96, the last check passed: a command that is KEY or has its key is executed and raises no fault. -/
theorem exec_of_checks_passed (ha : Accepting s) (h : (∃ k, i = .key k) ∨ (s.status.keyValid = true ∧ HoldsKeys s rk)) :
    ∃ t, exec i s = .next t ∧ t.status.fault = false := by
  cases i with
  | key k => exact ⟨_, exec_key_of_accepting ha k, ha.1⟩
  | enc p =>
    obtain ⟨hk, hrk⟩ := h.resolve_left nofun
    exact exec_cipher_of_keyed .enc ha hk hrk
  | dec c =>
    obtain ⟨hk, hrk⟩ := h.resolve_left nofun
    exact exec_cipher_of_keyed .dec ha hk hrk

/-- R102: a delivery overwrites everything that an earlier one wrote. -/
@[simp] theorem deliver_deliver (v v' : Nibbles) (s : State) : deliver v' (deliver v s) = deliver v' s :=
  rfl

/-- R45: the word of a mnemonic and an operand by weight. -/
theorem encode_instrOf_toNat (m : Mnemonic) (v : Block) :
    (encode (instrOf m v)).toNat = (opOf m).toNat * 0x10000 + v.toNat := by
  rw [encode_instrOf, BitVec.toNat_append, ← Nat.shiftLeft_add_eq_or_of_lt v.isLt, Nat.shiftLeft_eq]

end Sys2Proof.Machine
end

section
/-! PROOFS. The obligations on faults, the stuck block, the host adapter and callers (R91 to R102). -/

namespace Sys2Proof.Proofs

open Sys2Proof.Machine Sys2Proof.Safety

/-- Settles O10: under the invariant the condition says that the block is stuck, and a block that is not stuck has a step. -/
theorem stepStopsOnlyWhenStuck : Obligations.StepStopsOnlyWhenStuck := by
  intro s h
  rw [← stuck_iff h]
  by_cases hstuck : Stuck s
  · have hstep := step_of_stuck hstuck
    exact ⟨fun r hr => (nomatch hstep.symm.trans hr), iff_of_true hstep hstuck, fun hno => absurd hstuck hno⟩
  · obtain ⟨t, hstep⟩ := exists_step_of_not_stuck h hstuck
    exact ⟨fun r hr => (nomatch hstep.symm.trans hr),
      iff_of_false (fun hf => nomatch hstep.symm.trans hf) hstuck, fun _ => ⟨t, hstep⟩⟩

/-- Settles O16: a value that fits is its own 16-bit operand, and the command's word is weighed by its two fields. -/
theorem adapterSendsOrRefuses : Obligations.AdapterSendsOrRefuses := by
  refine fun m n => ⟨fun hn => ?_, fun hn => ?_⟩
  · have hv : (BitVec.ofNat 16 n).toNat = n := (BitVec.toNat_ofNat ..).trans (Nat.mod_eq_of_lt (Nat.lt_succ_of_le hn))
    refine ⟨_, submit_of_fits hn, ?_, _, hv, decode_encode _⟩
    rw [encode_instrOf_toNat, hv]
  · rw [submit_of_wide hn]
    cases m <;> rfl

/-- Settles O51: of the effects of a step only fault entry sets FAULT, and it is raised for one of two causes. -/
theorem faultsArePreciseWithTwoCauses : Obligations.FaultsArePreciseWithTwoCauses := by
  intro s t hst hs ht
  cases step_effect hst with
  | fault rest hh ha hc =>
    refine ⟨_, rest, hh, ha.2, rfl, ?_⟩
    cases hc with
    | illegalCommand hd => exact .inl ⟨hd, rfl⟩
    | noKey hd hk => exact .inr ⟨hk, rfl, _, hd⟩
  | reset => cases ht
  | key | deliver | accept | stay | stage | finish => cases hs.symm.trans ht

/-- Settles O53, check by check: FAULT, the reserved word, the missing key, and then the command's execution. -/
theorem checksRunInOrder : Obligations.ChecksRunInOrder := by
  obtain ⟨-, hreserved⟩ := reservedWordRaisesIllegalCommand
  refine ⟨fun s w rest hs hh => ⟨fun hf => ?_, fun hf hw => ?_, fun x hf hd hk => ?_, fun i rk hf hd hpass => ?_⟩,
    runStage_ne_fault, fun _ _ => runStage_keeps_fault⟩
  · exact step_of_present_of_fault hf hs hh
  · exact hreserved s w rest hw ⟨hf, hs⟩ hh
  · have hstep {i f g} (hc : CipherCommand x i f g) (hd : decode w = .command i) :=
      (step_of_command ⟨hf, hs⟩ hh hd).trans (exec_cipher_of_no_key (s := { s with host := rest }) hc ⟨hf, hs⟩ hk)
    exact hd.elim (hstep .enc) (hstep .dec)
  · obtain ⟨t, hexec, ht⟩ := exec_of_checks_passed (s := { s with host := rest }) ⟨hf, hs⟩ hpass
    exact ⟨t, (step_of_command ⟨hf, hs⟩ hh hd).trans hexec, hexec, ht⟩

/-- Settles O54: with FAULT = 1 every command is stuck, and no step but reset clears FAULT or CAUSE. -/
theorem noReturnFromFault : Obligations.NoReturnFromFault := by
  intro s hf
  refine ⟨fun i t h => (nomatch (exec_of_fault hf i).symm.trans h), fun t hst hr => ?_⟩
  obtain ⟨-, hkeep, -⟩ := onlyResetClearsStatus s t hst hr
  exact hkeep hf

/-- Settles O56: the first delivery keeps the keys, and the second overwrites what the first wrote. -/
theorem earlierCallerLeavesNoTrace : Obligations.EarlierCallerLeavesNoTrace := by
  intro x y i j s rk hi hj ha hl hk hrk
  obtain ⟨f, _, hci⟩ := exists_cipherCommand hi
  obtain ⟨f', _, hcj⟩ := exists_cipherCommand hj
  refine ⟨deliver (f rk x) s, deliver (f' rk y) s, exec_cipher_of_atomic hci ha hl hk hrk, ?_,
    exec_cipher_of_atomic hcj ha hl hk hrk⟩
  rw [← deliver_deliver (f rk x)]
  exact exec_cipher_of_atomic (s := deliver (f rk x) s) hcj ha hl hk hrk

end Sys2Proof.Proofs
end

section
/-! PROOFS. Family 70_reset_and_hazards.md. The idle block, which waits for the host's next command (R105). -/

namespace Sys2Proof.Machine

/-- R105: an idle block that the host lets wait uses up the `hold` and does nothing else. -/
theorem step_of_hold_of_idle {s : State} {rest : List HostMove} (hs : s.stage = .idle) (hh : s.host = .hold :: rest) :
    step s = .next { s with host := rest } :=
  (step_of_stageTurn (.inr (.inl hh))).trans (runStage_of_idle (s := { s with host := rest }) hs)

end Sys2Proof.Machine

namespace Sys2Proof.Proofs

open Sys2Proof.Machine

/-- Settles O58: with no command at the port the step of an idle block is a stage step with no stage in progress. -/
theorem nothingHappensUntilACommand : Obligations.NothingHappensUntilACommand :=
  fun _ hs => ⟨step_of_no_move hs, fun _ => step_of_hold_of_idle hs⟩

end Sys2Proof.Proofs
end
